-- ==== Sys2Proof/Word.lean ====
section
/-! DEFINITION. The words and levels of the block: bytes, the 40-bit frame word, the level of the
Line, the direction and the state of the pad, and the input ports of one clock edge. -/

namespace Sys2Proof

/-- A byte of the Frame, of `DATA.HUM` or of `DATA.TEMP` (10_state.md R20, R22). -/
abbrev Byte := BitVec 8

/-- The contents of `SR`: 40 bits (10_state.md R21). -/
abbrev FrameWord := BitVec 40

/-- A level of the Line: `HIGH` is 1, `LOW` is 0 (00_scope.md R9). -/
inductive Level where
  | low
  | high
  deriving DecidableEq, Repr, Inhabited

/-- The direction `PAD.OE`: 1 is drive (output), 0 is sense (input) (20_memory.md R53). -/
inductive Direction where
  | sense
  | drive
  deriving DecidableEq, Repr, Inhabited

/-- What the engine does to the Line: drive it to a level, or release it. Its three values are the
three pad codes of 30_encoding.md R87; the fourth combination of `PAD.OE` and `PAD.OUT`, sense with
`OUT = 0`, "never occurs" (R89 item 2) and cannot be written. Log 12. -/
inductive Pad where
  | drive (v : Level)
  | sense
  deriving DecidableEq, Repr, Inhabited

/-- The input ports at one rising edge of `clk` (10_state.md R31; `clk` itself is the step). -/
structure Pins where
  /-- `rst`: synchronous reset, active high. -/
  rst : Bool
  /-- `start`: the READ command, `CTRL.START`. -/
  start : Bool
  /-- `line_in`: the level on the Line, already synchronised (20_memory.md R55). -/
  lineIn : Level
  /-- `drv_fault`: the line operation of this edge failed (20_memory.md R57). -/
  drvFault : Bool
  deriving DecidableEq, Repr, Inhabited

end Sys2Proof
end

