-- ==== Sys2Proof/Config.lean ====
section
/-! DEFINITION. What an implementation fixes: the parameters of 00_scope.md R6, and the values the
spec leaves open. -/

namespace Sys2Proof

/-- The parameters a run carries: those of 00_scope.md R6 that are kept as arguments within stated
ranges (92_eei_decisions.md D1, D5). Their ranges are checked in WellFormed.lean. -/
structure Params where
  /-- `TICKS_PER_US`: clock ticks per microsecond. -/
  ticksPerUs : Nat
  /-- `HS_LOW_US`: the handshake low pulse in microseconds. -/
  hsLowUs : Nat
  /-- `HS_HIGH_US`: the handshake high drive in microseconds. -/
  hsHighUs : Nat
  deriving DecidableEq, Repr

/-- The defaults of 00_scope.md R6: a 1 MHz clock, 18 ms low, 40 µs high. -/
def Params.default : Params := { ticksPerUs := 1, hsLowUs := 18000, hsHighUs := 40 }

namespace Config

/-- `N_BITS`, fixed (00_scope.md R6): data bits per frame. -/
def nBits : Nat := 40

/-- `N_BYTES`, fixed (00_scope.md R6): bytes per frame. -/
def nBytes : Nat := 5

/-- `THRESH_US`, fixed (00_scope.md R6): a high of more microseconds than this decodes 1. -/
def threshUs : Nat := 30

/-- `TIMEOUT_US`, fixed (00_scope.md R6): the ceiling of one timed wait. -/
def timeoutUs : Nat := 250000

/-- `T_RECOVERY_US`, OPEN (00_scope.md R6, 92_eei_decisions.md D23): the spec fixes no value, so
this constant has no body. The engine never reads it (70_reset_and_hazards.md R206). Log 16. -/
opaque tRecoveryUs : Nat

/-- FREE VALUE. The input ports at the `n`-th edge of a run, where the state lists no input for it:
an unconstrained stream (00_scope.md R11, 20_memory.md R64), so this constant has no body. Log 2. -/
opaque freePins : Nat → Pins

end Config

end Sys2Proof
end

