-- ==== Sys2Proof/Syntax.lean ====
section
/-! DEFINITION. The instructions: one constructor per row of spec/opcode_table.json, and the small
enumerations of the formats they belong to. -/

namespace Sys2Proof

/-- The six formats (30_encoding.md R80). -/
inductive Format where
  /-- `CMD`: 1 bit on port `start`. -/
  | cmd
  /-- `SEQ`: 4 bits in register `ST`. -/
  | seq
  /-- `PADC`: 2 bits `{OE, OUT}` on ports `line_oe`, `line_out`. -/
  | padc
  /-- `RES`: 2 bits on port `code`. -/
  | res
  /-- `WIRE40`: 40 bits on the Line. -/
  | wire40
  /-- `SYM`: one symbol on the Line, carrying one bit. -/
  | sym
  deriving DecidableEq, Repr

/-- The nine operations of the sequencer, the legal values of `ST` (10_state.md R25). -/
inductive SeqOp where
  | idle
  | hsLow
  | hsHigh
  | ack1
  | ack2
  | ack3
  | bitLow
  | bitHigh
  | check
  deriving DecidableEq, Repr

/-- The three terminal errors (60_exceptions.md R170). -/
inductive ReadError where
  | driverFault
  | timeout
  | checksumMismatch
  deriving DecidableEq, Repr

/-- The four values of `STATUS.CODE` (30_encoding.md R88). -/
inductive ResCode where
  | ok
  | driverFault
  | timeout
  | checksumMismatch
  deriving DecidableEq, Repr

/-- The rows of spec/opcode_table.json, in its order. -/
inductive Instr where
  /-- `NOCMD`: no command (40_command.md R110). -/
  | nocmd
  /-- `READ`: the Caller's command (40_command.md R111, R112). -/
  | read
  /-- `IDLE`: the idle operation (40_command.md R110, R111). -/
  | idle
  /-- `HS_LOW`: hold the Line low (41_handshake.md R121). -/
  | hsLow
  /-- `HS_HIGH`: drive the Line high, then release it (41_handshake.md R122). -/
  | hsHigh
  /-- `ACK1`: await "line goes low" (42_acknowledge.md R130). -/
  | ack1
  /-- `ACK2`: await "line goes high" (42_acknowledge.md R131). -/
  | ack2
  /-- `ACK3`: await "line goes low again" (42_acknowledge.md R132). -/
  | ack3
  /-- `BIT_LOW`: await the end of the start-of-bit low (43_bit_decode.md R141). -/
  | bitLow
  /-- `BIT_HIGH`: measure the high, decide the bit, shift it in (43_bit_decode.md R142). -/
  | bitHigh
  /-- `CHECK`: validate, deliver, restore the Line (44_validate.md R151). -/
  | check
  /-- `DRIVE_LOW`: pad code `0b10` (30_encoding.md R87). -/
  | driveLow
  /-- `DRIVE_HIGH`: pad code `0b11` (30_encoding.md R87). -/
  | driveHigh
  /-- `SENSE`: pad code `0b01` (30_encoding.md R87). -/
  | sense
  /-- `OK`: result code `0b00` (30_encoding.md R88). -/
  | ok
  /-- `DRIVER_FAULT`: result code `0b01` (60_exceptions.md R171). -/
  | driverFault
  /-- `TIMEOUT`: result code `0b10` (60_exceptions.md R172). -/
  | timeout
  /-- `CHECKSUM_MISMATCH`: result code `0b11` (60_exceptions.md R173). -/
  | checksumMismatch
  /-- `FRAME`: the bytes `h f t g c` in order of arrival (30_encoding.md R81). -/
  | frame (h f t g c : Byte)
  /-- `BIT0`: a symbol that decodes 0 (30_encoding.md R82, R83). -/
  | bit0
  /-- `BIT1`: a symbol that decodes 1 (30_encoding.md R82, R83). -/
  | bit1
  deriving DecidableEq, Repr

/-- A word of one of the six formats: which format carries it, and its bits as a number, bit 0
least significant, as spec/opcode_table.json numbers them. -/
structure CodeWord where
  format : Format
  bits : Nat
  deriving DecidableEq, Repr

end Sys2Proof
end

