-- ==== Sys2Proof/WellFormed.lean ====
section
/-! DEFINITION. Well-formedness: the ranges of the parameters, the legal words of each format, and
the instructions (every one of which is legal). -/

namespace Sys2Proof

/-- `TICKS_PER_US` is a positive integer (00_scope.md R6). -/
abbrev Params.clockOk (p : Params) : Bool := decide (1 ≤ p.ticksPerUs)

/-- `HS_LOW_US >= 18000` (00_scope.md R6, 41_handshake.md R120). -/
abbrev Params.lowPulseOk (p : Params) : Bool := decide (18000 ≤ p.hsLowUs)

/-- `20 <= HS_HIGH_US <= 40` (00_scope.md R6, 41_handshake.md R120). -/
abbrev Params.highDriveOk (p : Params) : Bool := decide (20 ≤ p.hsHighUs ∧ p.hsHighUs ≤ 40)

/-- The parameters lie in the ranges of 00_scope.md R6. -/
abbrev Params.wellFormed (p : Params) : Bool := p.clockOk && p.lowPulseOk && p.highDriveOk

/-- The width of a format in bits (30_encoding.md R80; a symbol carries one bit). -/
abbrev Format.width : Format → Nat
  | .cmd => 1
  | .seq => 4
  | .padc => 2
  | .res => 2
  | .wire40 => 40
  | .sym => 1

/-- The word fits its format's width. -/
abbrev CodeWord.fits (w : CodeWord) : Bool := decide (w.bits < 2 ^ w.format.width)

/-- The word is none of the reserved ones: `SEQ` 9 to 15 and `PADC` `0b00` (30_encoding.md R89). -/
abbrev CodeWord.notReserved (w : CodeWord) : Bool :=
  match w.format with
  | .seq => decide (w.bits ≤ 8)
  | .padc => decide (w.bits ≠ 0)
  | _ => true

/-- The word is a legal word of its format. -/
abbrev CodeWord.wellFormed (w : CodeWord) : Bool := w.fits && w.notReserved

/-- Every instruction is well formed: the operands of `FRAME` are bytes, and "Every one of the
2^40 patterns is a legal frame for decoding" (30_encoding.md R81); no other row has an operand
field, and "Nothing traps as an illegal encoding" (R89). -/
def Instr.wellFormed : Instr → Bool
  | .nocmd => true
  | .read => true
  | .idle => true
  | .hsLow => true
  | .hsHigh => true
  | .ack1 => true
  | .ack2 => true
  | .ack3 => true
  | .bitLow => true
  | .bitHigh => true
  | .check => true
  | .driveLow => true
  | .driveHigh => true
  | .sense => true
  | .ok => true
  | .driverFault => true
  | .timeout => true
  | .checksumMismatch => true
  | .frame _ _ _ _ _ => true
  | .bit0 => true
  | .bit1 => true

end Sys2Proof
end

