-- ==== Sys2Proof/Decode.lean ====
section
/-! DEFINITION. The decoder of the six formats of 30_encoding.md, total on any number and
rejecting by name, and after it the encoder. -/

namespace Sys2Proof

/-- Why a word is no instruction. -/
inductive Reject where
  /-- The word has a bit above its format's width. -/
  | tooWide
  /-- A `SEQ` code 9 to 15 (30_encoding.md R89 item 1). -/
  | reservedSeqCode
  /-- The `PADC` code `0b00`, sense with `OUT = 0` (30_encoding.md R89 item 2). -/
  | senseWithOutLow
  deriving DecidableEq, Repr

/-- Format `CMD` (30_encoding.md R85). -/
def decodeCmd : Nat → Except Reject Instr
  | 0 => .ok .nocmd
  | 1 => .ok .read
  | _ => .error .tooWide

/-- Format `SEQ` (30_encoding.md R86, R89). -/
def decodeSeq : Nat → Except Reject Instr
  | 0 => .ok .idle
  | 1 => .ok .hsLow
  | 2 => .ok .hsHigh
  | 3 => .ok .ack1
  | 4 => .ok .ack2
  | 5 => .ok .ack3
  | 6 => .ok .bitLow
  | 7 => .ok .bitHigh
  | 8 => .ok .check
  | w => if w < 16 then .error .reservedSeqCode else .error .tooWide

/-- Format `PADC`, `{OE, OUT}` (30_encoding.md R87, R89). -/
def decodePadc : Nat → Except Reject Instr
  | 0 => .error .senseWithOutLow
  | 1 => .ok .sense
  | 2 => .ok .driveLow
  | 3 => .ok .driveHigh
  | _ => .error .tooWide

/-- Format `RES` (30_encoding.md R88). -/
def decodeRes : Nat → Except Reject Instr
  | 0 => .ok .ok
  | 1 => .ok .driverFault
  | 2 => .ok .timeout
  | 3 => .ok .checksumMismatch
  | _ => .error .tooWide

/-- Format `SYM`: the bit a symbol carries (30_encoding.md R82, R83). -/
def decodeSym : Nat → Except Reject Instr
  | 0 => .ok .bit0
  | 1 => .ok .bit1
  | _ => .error .tooWide

/-- Byte `B[i]` of a frame word, `i` in 0 to 4: `SR[39-8*i : 32-8*i]` (10_state.md R22). -/
def frameByte (v : FrameWord) (i : Nat) : Byte := v.extractLsb' (32 - 8 * i) 8

/-- The frame word `{h, f, t, g, c}` of five bytes, the first received most significant
(30_encoding.md R81). -/
def frameWord (h f t g c : Byte) : FrameWord :=
  BitVec.ofNat 40 (h.toNat * 2 ^ 32 + f.toNat * 2 ^ 24 + t.toNat * 2 ^ 16 + g.toNat * 2 ^ 8 + c.toNat)

/-- Format `WIRE40`: every pattern is a legal frame (30_encoding.md R81). -/
def decodeWire40 (w : Nat) : Except Reject Instr :=
  if w < 2 ^ 40 then
    let v : FrameWord := BitVec.ofNat 40 w
    .ok (.frame (frameByte v 0) (frameByte v 1) (frameByte v 2) (frameByte v 3) (frameByte v 4))
  else .error .tooWide

/-- The decoder: the instruction a word stands for in the format that carries it. -/
def decode : Format → Nat → Except Reject Instr
  | .cmd, w => decodeCmd w
  | .seq, w => decodeSeq w
  | .padc, w => decodePadc w
  | .res, w => decodeRes w
  | .wire40, w => decodeWire40 w
  | .sym, w => decodeSym w

/-- The code of an operation in register `ST` (30_encoding.md R86). -/
def SeqOp.code : SeqOp → BitVec 4
  | .idle => 0b0000
  | .hsLow => 0b0001
  | .hsHigh => 0b0010
  | .ack1 => 0b0011
  | .ack2 => 0b0100
  | .ack3 => 0b0101
  | .bitLow => 0b0110
  | .bitHigh => 0b0111
  | .check => 0b1000

/-- The instruction that register `ST` names. -/
def SeqOp.instr : SeqOp → Instr
  | .idle => .idle
  | .hsLow => .hsLow
  | .hsHigh => .hsHigh
  | .ack1 => .ack1
  | .ack2 => .ack2
  | .ack3 => .ack3
  | .bitLow => .bitLow
  | .bitHigh => .bitHigh
  | .check => .check

/-- The code of an outcome in `STATUS.CODE` (30_encoding.md R88). -/
def ResCode.bits : ResCode → BitVec 2
  | .ok => 0b00
  | .driverFault => 0b01
  | .timeout => 0b10
  | .checksumMismatch => 0b11

/-- The outcome code of an error (60_exceptions.md R171 to R173). -/
def ReadError.code : ReadError → ResCode
  | .driverFault => .driverFault
  | .timeout => .timeout
  | .checksumMismatch => .checksumMismatch

/-- The bit `PAD.OE` shows for a direction (20_memory.md R53). -/
def Direction.bit : Direction → BitVec 1
  | .sense => 0
  | .drive => 1

/-- The bit of a level (00_scope.md R9). -/
def Level.bit : Level → BitVec 1
  | .low => 0
  | .high => 1

/-- `OE` of a pad code (30_encoding.md R87). -/
def Pad.dir : Pad → Direction
  | .drive _ => .drive
  | .sense => .sense

/-- `OUT` of a pad code (30_encoding.md R87): "While `OE = 0`, `OUT = 1`" (10_state.md R32 item 2). -/
def Pad.level : Pad → Level
  | .drive v => v
  | .sense => .high

/-- The encoder: the word of an instruction, in the format that carries it (30_encoding.md R81 and
R85 to R88). -/
def encode : Instr → CodeWord
  | .nocmd => { format := .cmd, bits := 0 }
  | .read => { format := .cmd, bits := 1 }
  | .idle => { format := .seq, bits := 0 }
  | .hsLow => { format := .seq, bits := 1 }
  | .hsHigh => { format := .seq, bits := 2 }
  | .ack1 => { format := .seq, bits := 3 }
  | .ack2 => { format := .seq, bits := 4 }
  | .ack3 => { format := .seq, bits := 5 }
  | .bitLow => { format := .seq, bits := 6 }
  | .bitHigh => { format := .seq, bits := 7 }
  | .check => { format := .seq, bits := 8 }
  | .driveLow => { format := .padc, bits := 0b10 }
  | .driveHigh => { format := .padc, bits := 0b11 }
  | .sense => { format := .padc, bits := 0b01 }
  | .ok => { format := .res, bits := 0b00 }
  | .driverFault => { format := .res, bits := 0b01 }
  | .timeout => { format := .res, bits := 0b10 }
  | .checksumMismatch => { format := .res, bits := 0b11 }
  | .frame h f t g c => { format := .wire40, bits := (frameWord h f t g c).toNat }
  | .bit0 => { format := .sym, bits := 0 }
  | .bit1 => { format := .sym, bits := 1 }

/-- Which format a word of spec/opcode_table.json is read in, where only its width is told, in
whole bytes or exactly. The sequencer's own code where the word is a byte, because `ST` is what
the engine runs from. `PADC` and `RES` words leave the engine and `SYM` is measured, not given, so
no width stands for them. DESIGN CHOICE, log 1. -/
def formatOfWidth : Nat → Option Format
  | 1 => some .cmd
  | 4 => some .seq
  | 8 => some .seq
  | 40 => some .wire40
  | _ => none

/-- The instruction the decoder reads from a table word of `nbits` bits `w`. Log 1. -/
def decodeTableWord (nbits w : Nat) : Option Instr :=
  match formatOfWidth nbits with
  | none => none
  | some f =>
    match decode f w with
    | .ok i => some i
    | .error _ => none

end Sys2Proof
end

