-- ==== Sys2Proof/Machine/State.lean ====
section
/-! DEFINITION. The state: the ten registers of 10_state.md R20, the parameters of the run and the
inputs of the coming edges; the reasons a step can stop; the state after reset. -/

namespace Sys2Proof.Machine

/-- The machine's faults: none. The step function is total (10_state.md R30); the three errors of a
read are next states (60_exceptions.md R176, R182). Safe and exact. Log 15. -/
inductive Fault
  deriving DecidableEq, Repr

/-- The refusals. -/
inductive Refusal where
  /-- Raised by an arm of `exec` whose instruction has no meaning yet. Safe. No arm raises it. -/
  | notModelled (mnemonic : String)
  deriving DecidableEq, Repr

/-- The state. The first nine fields hold the ten registers of 10_state.md R20, "the engine's
whole state" (`PAD.OE` and `PAD.OUT` are one pad code); the last three are the model's own
(log 2, 3, 4). There is no memory (20_memory.md R50). -/
structure State where
  /-- `ST`: the operation in progress (R25). -/
  st : SeqOp
  /-- `BITN`: data bits shifted into `SR` in this read, 0 to 40 (R24). Log 5. -/
  bitn : Nat
  /-- `CNT`: the elapsed-tick counter, `el = CNT + 1` at an edge (R23). Log 5. -/
  cnt : Nat
  /-- `SR`: the frame being assembled (R21, R22). -/
  sr : FrameWord
  /-- `PAD`: the registers `PAD.OE` and `PAD.OUT` together, one of three pad codes (R28,
  30_encoding.md R87, R89); each is read out of it in Operands.lean. Log 12. -/
  pad : Pad
  /-- `STATUS.DONE` (R28). -/
  done : Bool
  /-- `STATUS.CODE` (R28). -/
  code : ResCode
  /-- `DATA.HUM` (R28). -/
  hum : Byte
  /-- `DATA.TEMP` (R28). -/
  temp : Byte
  /-- MODEL's own: the parameters of the run, constant (00_scope.md R6, 10_state.md R35). -/
  params : Params
  /-- MODEL's own: the input ports of the coming edges, the next edge first. -/
  pending : List Pins
  /-- MODEL's own: rising edges taken so far, the index of the free input stream. -/
  edge : Nat
  deriving DecidableEq, Repr

/-- The state after reset (70_reset_and_hazards.md R200, values of 10_state.md R20): `IDLE`, the
Line driven high, everything else 0. The model's own fields: default parameters, no input listed,
no edge taken (log 2, 3, 4, 13). -/
def State.reset : State where
  st := .idle
  bitn := 0
  cnt := 0
  sr := 0
  pad := .drive .high
  done := false
  code := .ok
  hum := 0
  temp := 0
  params := Params.default
  pending := []
  edge := 0

end Sys2Proof.Machine
end

