-- ==== Sys2Proof/Machine/Operands.lean ====
section
/-! DEFINITION. What an operation reads: the input ports of its edge, the bytes of the frame, the
tick constants; and what the outside reads: the control and status registers, the output ports and
the result. -/

namespace Sys2Proof.Machine

/-! ### Inputs (00_scope.md R10, 10_state.md R31) -/

/-- The input ports at the coming edge: the first listed, or the free stream's where none is
listed (log 2). -/
def State.pins (s : State) : Pins := s.pending.headD (Config.freePins s.edge)

/-- `s` with `p` as the input ports of the coming edge. -/
def State.withPins (s : State) (p : Pins) : State := { s with pending := p :: s.pending.tail }

/-- `LineRead()`: the value of `line_in` at this edge (20_memory.md R55). -/
def State.lineRead (s : State) : Level := s.pins.lineIn

/-- `Fault()`: the value of `drv_fault` at this edge (20_memory.md R57). -/
def State.faulted (s : State) : Bool := s.pins.drvFault

/-- `CTRL.START`: the value of `start` at this edge (10_state.md R28). -/
def State.started (s : State) : Bool := s.pins.start

/-! ### The frame -/

/-- `B[i]`, `i` in 0 to 4 (10_state.md R22). -/
def State.byte (s : State) (i : Nat) : Byte := frameByte s.sr i

/-! ### Tick constants (00_scope.md R7) -/

/-- `THRESH_TICKS`. -/
def State.threshTicks (s : State) : Nat := Config.threshUs * s.params.ticksPerUs

/-- `TIMEOUT_TICKS`. -/
def State.timeoutTicks (s : State) : Nat := Config.timeoutUs * s.params.ticksPerUs

/-- `HS_LOW_TICKS`. -/
def State.hsLowTicks (s : State) : Nat := s.params.hsLowUs * s.params.ticksPerUs

/-- `HS_HIGH_TICKS`. -/
def State.hsHighTicks (s : State) : Nat := s.params.hsHighUs * s.params.ticksPerUs

/-! ### The pad (10_state.md R28) -/

/-- `PAD.OE`. -/
def State.oe (s : State) : Direction := s.pad.dir

/-- `PAD.OUT`. -/
def State.out (s : State) : Level := s.pad.level

/-! ### Control and status registers (10_state.md R28) -/

/-- `STATUS.BUSY`: `ST != IDLE`. -/
def State.busy (s : State) : Bool := decide (s.st ≠ .idle)

/-- Register 1, `STATUS`: `CODE` in bits 3:2, `DONE` in bit 1, `BUSY` in bit 0. -/
def State.statusWord (s : State) : BitVec 4 :=
  BitVec.ofNat 4 (4 * s.code.bits.toNat + 2 * s.done.toNat + s.busy.toNat)

/-- Register 2, `DATA`: `TEMP` in bits 15:8, `HUM` in bits 7:0. -/
def State.dataWord (s : State) : BitVec 16 :=
  BitVec.ofNat 16 (256 * s.temp.toNat + s.hum.toNat)

/-- Register 3, `PAD`: `OE` in bit 1, `OUT` in bit 0; the pad code of 30_encoding.md R87. -/
def State.padWord (s : State) : BitVec 2 :=
  BitVec.ofNat 2 (2 * s.oe.bit.toNat + s.out.bit.toNat)

/-! ### Output ports (10_state.md R31) -/

/-- The seven output ports. -/
structure Outputs where
  lineOe : BitVec 1
  lineOut : BitVec 1
  busy : Bool
  done : Bool
  code : BitVec 2
  humidity : Byte
  temperature : Byte
  deriving DecidableEq, Repr

/-- What the output ports show: "outputs come straight from registers" (10_state.md R31). -/
def State.outputs (s : State) : Outputs where
  lineOe := s.oe.bit
  lineOut := s.out.bit
  busy := s.busy
  done := s.done
  code := s.code.bits
  humidity := s.hum
  temperature := s.temp

/-! ### The result of a read (10_state.md R28, 44_validate.md R153) -/

/-- RPPAL's Measurement: two unsigned bytes. -/
structure Measurement where
  humidity : Byte
  temperature : Byte
  deriving DecidableEq, Repr

/-- The outcome of a finished read: exactly one of a Measurement or an error (00_scope.md R12). -/
inductive ReadResult where
  | ok (m : Measurement)
  | err (e : ReadError)
  deriving DecidableEq, Repr

/-- (`DONE`, `CODE`, `HUM`, `TEMP`) as an optional result: none while `DONE = 0`; `HUM` and `TEMP`
are never read out of an error (10_state.md R28). Log 11. -/
def State.result (s : State) : Option ReadResult :=
  if s.done then
    match s.code with
    | .ok => some (.ok { humidity := s.hum, temperature := s.temp })
    | .driverFault => some (.err .driverFault)
    | .timeout => some (.err .timeout)
    | .checksumMismatch => some (.err .checksumMismatch)
  else none

end Sys2Proof.Machine
end

