-- ==== Sys2Proof/Machine/Flags.lean ====
section
/-! DEFINITION. The five conditions of 10_state.md R27, computed at an edge and never stored, and
the checksum arithmetic behind the last. -/

namespace Sys2Proof.Machine

/-- `el`: the ticks elapsed since the current operation was entered, `CNT + 1`. -/
def State.el (s : State) : Nat := s.cnt + 1

/-- `differs`: the sampled level is not the level of the current wait. -/
def State.differs (s : State) (level : Level) : Bool := decide (s.lineRead ≠ level)

/-- `expired`: `el > TIMEOUT_TICKS`. -/
def State.expired (s : State) : Bool := decide (s.timeoutTicks < s.el)

/-- `bit`: 1 if `el > THRESH_TICKS` else 0. -/
def State.bit (s : State) : Bool := decide (s.threshTicks < s.el)

/-- `(B[0] + B[1] + B[2] + B[3]) & 0xFF`: the four data bytes added as natural numbers, the low
eight bits kept (44_validate.md R152). -/
def frameSum (v : FrameWord) : Byte :=
  BitVec.ofNat 8 ((frameByte v 0).toNat + (frameByte v 1).toNat + (frameByte v 2).toNat
    + (frameByte v 3).toNat)

/-- `sum_ok`: the sum of the data bytes equals the checksum byte. -/
def State.sumOk (s : State) : Bool := decide (frameSum s.sr = frameByte s.sr 4)

end Sys2Proof.Machine
end

