-- ==== Sys2Proof/Machine/Ops.lean ====
section
/-! DEFINITION. The operations the meanings share: the line operations, the exit sequence (this
block's way of taking an exception, and its only return), the timed wait, the shift, acceptance,
the reset edge, the move to the next edge, and what an edge runs. -/

namespace Sys2Proof

/-! ### Writes to one of the two bits of the pad (20_memory.md R53, R54) -/

/-- The pad with `OE` written: driving keeps the level. A release leaves `OUT = 1`, as it does at
the one edge that performs it (41_handshake.md R122). Log 12. -/
def Pad.withDir (p : Pad) : Direction → Pad
  | .drive => .drive p.level
  | .sense => .sense

/-- The pad with `OUT` written. A released pad has no other level than `OUT = 1` (10_state.md R32
item 2), and no edge writes `OUT` while it is released (20_memory.md R54). Log 12. -/
def Pad.withLevel (p : Pad) (v : Level) : Pad :=
  match p with
  | .drive _ => .drive v
  | .sense => .sense

end Sys2Proof

namespace Sys2Proof.Machine

/-! ### Line operations (20_memory.md R53, R54) -/

/-- `LineDir(d)`: set-direction, `PAD.OE <- d`. -/
def lineDir (d : Direction) (s : State) : State := { s with pad := s.pad.withDir d }

/-- `LineLevel(v)`: set-output-level, `PAD.OUT <- v`. -/
def lineLevel (v : Level) (s : State) : State := { s with pad := s.pad.withLevel v }

/-! ### The exit sequence (60_exceptions.md R176) -/

/-- `exit(code, h, t)`: writes the outcome, discards the frame, clears the counters, drives the
Line high (set-direction, then set-output-level, 20_memory.md R62) and goes to `IDLE`. -/
def exitRead (code : ResCode) (h t : Byte) (s : State) : State :=
  lineLevel .high (lineDir .drive
    { s with
      done := true, code := code, hum := h, temp := t, sr := 0, bitn := 0, cnt := 0, st := .idle })

/-- `raise E` is `exit(code of E, 0, 0)` (60_exceptions.md R176). -/
def raise (e : ReadError) (s : State) : State := exitRead e.code 0 0 s

/-- `exit OK with humidity = B[0], temperature = B[2]` (44_validate.md R151, R153). -/
def exitOk (s : State) : State := exitRead .ok (s.byte 0) (s.byte 2) s

/-! ### The timed wait (45_timed_wait.md R161) -/

/-- `CNT <- el`: one more tick of a sleep or of a wait, nothing else (41_handshake.md R121,
45_timed_wait.md R161). -/
def countTick (s : State) : State := { s with cnt := s.el }

/-- One edge of `WAIT_WHILE(level) then { complete }`: driver fault, then level, then ceiling. -/
def waitWhile (level : Level) (complete : State → State) (s : State) : State :=
  if s.faulted then raise .driverFault s
  else if s.differs level then complete s
  else if s.expired then raise .timeout s
  else countTick s

/-- The part every `then` of a wait shares: `CNT <- 0 ; ST <- next`. -/
def enter (next : SeqOp) (s : State) : State := { s with cnt := 0, st := next }

/-! ### Acceptance, the shift -/

/-- The `READ` rule at an edge with `ST = IDLE` (40_command.md R111): a driver fault ends the read
at its acceptance edge; otherwise the old result is erased and the low pulse begins. -/
def acceptRead (s : State) : State :=
  if s.faulted then raise .driverFault s
  else
    lineLevel .low (lineDir .drive
      { s with
        done := false, code := .ok, hum := 0, temp := 0, sr := 0, bitn := 0, cnt := 0,
        st := .hsLow })

/-- `((SR << 1) | bit)[39:0]` (43_bit_decode.md R143). -/
def shiftIn (v : FrameWord) (bit : Bool) : FrameWord :=
  (v <<< 1) ||| (BitVec.ofBool bit).setWidth 40

/-- The completing edge of `BIT_HIGH` with the bit decided (43_bit_decode.md R142, R144): shift,
count, and go to `CHECK` after the fortieth bit, to `BIT_LOW` after every other. -/
def completeBit (bit : Bool) (s : State) : State :=
  { s with
    sr := shiftIn s.sr bit
    bitn := s.bitn + 1
    cnt := 0
    st := if s.bitn + 1 = Config.nBits then .check else .bitLow }

/-! ### The edge -/

/-- A reset edge: every register takes its reset value (70_reset_and_hazards.md R200). The
parameters and the input stream are no registers and stay. -/
def resetEdge (s : State) : State :=
  { State.reset with params := s.params, pending := s.pending, edge := s.edge }

/-- Time moves on by one tick: the inputs of this edge are past (00_scope.md R8, log 2, 3). -/
def tick (s : State) : State := { s with pending := s.pending.tail, edge := s.edge + 1 }

/-- What the next edge runs: the operation that `ST` names, this block's program counter
(10_state.md R26, R30). -/
def fetch (s : State) : Instr := s.st.instr

/-! ### Placing an instruction where the next edge runs it (log 14) -/

/-- Input ports with nothing asked, no fault and the Line high. -/
def quietPins : Pins := { rst := false, start := false, lineIn := .high, drvFault := false }

/-- The input ports listed for the coming edge, or quiet ones, with `rst = 0`. -/
def State.noResetPins (s : State) : Pins := { s.pending.headD quietPins with rst := false }

/-- `s` with operation `op` in `ST` and no reset at the coming edge. -/
def State.withOp (s : State) (op : SeqOp) : State := { s with st := op }.withPins s.noResetPins

/-- `s` set up so that the next edge runs `i`: an operation of the sequencer goes into `ST`; a
command goes onto port `start` in `IDLE`; a frame is set up at the edge that samples the end of its
fortieth symbol, thirty-nine bits already in `SR`. The other rows are no word that the engine is
given (log 1) and place nothing. -/
def State.place (s : State) : Instr → State
  | .nocmd => { s with st := .idle }.withPins { s.noResetPins with start := false }
  | .read => { s with st := .idle }.withPins { s.noResetPins with start := true }
  | .idle => s.withOp .idle
  | .hsLow => s.withOp .hsLow
  | .hsHigh => s.withOp .hsHigh
  | .ack1 => s.withOp .ack1
  | .ack2 => s.withOp .ack2
  | .ack3 => s.withOp .ack3
  | .bitLow => s.withOp .bitLow
  | .bitHigh => s.withOp .bitHigh
  | .check => s.withOp .check
  | .frame h f t g c =>
    { s with
      st := .bitHigh
      bitn := Config.nBits - 1
      sr := frameWord h f t g c >>> 1
      cnt := if (frameWord h f t g c).getLsbD 0 then s.threshTicks else 0
    }.withPins { s.noResetPins with lineIn := .low, drvFault := false }
  | .driveLow => s
  | .driveHigh => s
  | .sense => s
  | .ok => s
  | .driverFault => s
  | .timeout => s
  | .checksumMismatch => s
  | .bit0 => s
  | .bit1 => s

end Sys2Proof.Machine
end

