-- ==== Sys2Proof/Machine/Acknowledge.lean ====
section
/-! DEFINITION. The acknowledgment phase: three timed waits (42_acknowledge.md). -/

namespace Sys2Proof.Machine

/-- `ACK1`: await "line goes low" (42_acknowledge.md R130). -/
def execAck1 (s : State) : Host.Outcome State Fault Refusal :=
  .next (waitWhile .high (enter .ack2) s)

/-- `ACK2`: await "line goes high" (42_acknowledge.md R131). -/
def execAck2 (s : State) : Host.Outcome State Fault Refusal :=
  .next (waitWhile .low (enter .ack3) s)

/-- `ACK3`: await "line goes low again" (42_acknowledge.md R132). -/
def execAck3 (s : State) : Host.Outcome State Fault Refusal :=
  .next (waitWhile .high (fun u => enter .bitLow { u with bitn := 0 }) s)

end Sys2Proof.Machine
end

