-- ==== Sys2Proof/Machine/BitDecode.lean ====
section
/-! DEFINITION. Bit decoding and frame assembly (43_bit_decode.md), and the symbols and the frame
they decode (30_encoding.md R81 to R83). -/

namespace Sys2Proof.Machine

/-- `BIT_LOW`: await the end of the start-of-bit low, "ignored duration" (43_bit_decode.md R141). -/
def execBitLow (s : State) : Host.Outcome State Fault Refusal :=
  .next (waitWhile .low (enter .bitHigh) s)

/-- `BIT_HIGH`: measure the high, decide the bit, shift it in (43_bit_decode.md R142). -/
def execBitHigh (s : State) : Host.Outcome State Fault Refusal :=
  .next (waitWhile .high (fun u => completeBit u.bit u) s)

/-- `BIT0`: a symbol decoded 0 is shifted in, the completing edge of `BIT_HIGH` with `bit = 0`
(43_bit_decode.md R142, R143). Log 9. -/
def execBit0 (s : State) : Host.Outcome State Fault Refusal := .next (completeBit false s)

/-- `BIT1`: a symbol decoded 1 is shifted in, the completing edge of `BIT_HIGH` with `bit = 1`
(43_bit_decode.md R142, R143). Log 9. -/
def execBit1 (s : State) : Host.Outcome State Fault Refusal := .next (completeBit true s)

/-- `FRAME h f t g c`: the forty bits have been received; `SR` holds the frame, `BITN = 40`, and
`CHECK` is next (30_encoding.md R81, 43_bit_decode.md R144, R146). Log 9. -/
def execFrame (h f t g c : Byte) (s : State) : Host.Outcome State Fault Refusal :=
  .next { s with sr := frameWord h f t g c, bitn := Config.nBits, cnt := 0, st := .check }

end Sys2Proof.Machine
end

