-- ==== Sys2Proof/Machine/Command.lean ====
section
/-! DEFINITION. The Caller's command and the idle operation (40_command.md). -/

namespace Sys2Proof.Machine

/-- `NOCMD`: "nothing is written" (40_command.md R110); ignored as well while busy (R112). -/
def execNocmd (s : State) : Host.Outcome State Fault Refusal := .next s

/-- `READ`: in `IDLE` the acceptance edge (40_command.md R111); while `ST != IDLE` the command
"starts nothing, is not queued and is not remembered" (R112). Log 6. -/
def execRead (s : State) : Host.Outcome State Fault Refusal :=
  .next (if s.st = .idle then acceptRead s else s)

/-- `IDLE`: samples `start`; 1 is `READ`, 0 is no command (40_command.md R110, R111). -/
def execIdle (s : State) : Host.Outcome State Fault Refusal :=
  .next (if s.started then acceptRead s else s)

end Sys2Proof.Machine
end

