-- ==== Sys2Proof/Machine/Handshake.lean ====
section
/-! DEFINITION. The handshake (41_handshake.md). -/

namespace Sys2Proof.Machine

/-- `HS_LOW`: hold the Line low for `HS_LOW_TICKS`, then drive it high (41_handshake.md R121). -/
def execHsLow (s : State) : Host.Outcome State Fault Refusal :=
  .next (
    if s.el = s.hsLowTicks then
      if s.faulted then raise .driverFault s else enter .hsHigh (lineLevel .high s)
    else countTick s)

/-- `HS_HIGH`: hold the Line high for `HS_HIGH_TICKS`, then release it (41_handshake.md R122). -/
def execHsHigh (s : State) : Host.Outcome State Fault Refusal :=
  .next (
    if s.el = s.hsHighTicks then
      if s.faulted then raise .driverFault s else enter .ack1 (lineDir .sense s)
    else countTick s)

end Sys2Proof.Machine
end

