-- ==== Sys2Proof/Machine/Pad.lean ====
section
/-! DEFINITION. The three pad codes: what the engine does to the Line (30_encoding.md R87, effects
20_memory.md R53, R54). Direction before level (20_memory.md R62). Log 7. -/

namespace Sys2Proof.Machine

/-- `DRIVE_LOW`: set-direction(drive), set-output-level(LOW). -/
def execDriveLow (s : State) : Host.Outcome State Fault Refusal :=
  .next (lineLevel .low (lineDir .drive s))

/-- `DRIVE_HIGH`: set-direction(drive), set-output-level(HIGH). -/
def execDriveHigh (s : State) : Host.Outcome State Fault Refusal :=
  .next (lineLevel .high (lineDir .drive s))

/-- `SENSE`: set-direction(sense), the release, after which `PAD.OUT` is 1 (41_handshake.md R122:
"`PAD.OUT` stays 1"; from a pad that drives low, log 12). -/
def execSense (s : State) : Host.Outcome State Fault Refusal := .next (lineDir .sense s)

end Sys2Proof.Machine
end

