-- ==== Sys2Proof/Machine/Results.lean ====
section
/-! DEFINITION. The four outcomes: each result code is the exit sequence with that code
(30_encoding.md R88, 60_exceptions.md R171 to R173, R176). Log 8. -/

namespace Sys2Proof.Machine

/-- `OK`: exit with `humidity = B[0]`, `temperature = B[2]` (44_validate.md R151, R153). -/
def execOk (s : State) : Host.Outcome State Fault Refusal := .next (exitOk s)

/-- `DRIVER_FAULT`: `raise DriverFault` (60_exceptions.md R171). -/
def execDriverFault (s : State) : Host.Outcome State Fault Refusal := .next (raise .driverFault s)

/-- `TIMEOUT`: `raise Timeout` (60_exceptions.md R172). -/
def execTimeout (s : State) : Host.Outcome State Fault Refusal := .next (raise .timeout s)

/-- `CHECKSUM_MISMATCH`: `raise ChecksumMismatch` (60_exceptions.md R173). -/
def execChecksumMismatch (s : State) : Host.Outcome State Fault Refusal :=
  .next (raise .checksumMismatch s)

end Sys2Proof.Machine
end

