-- ==== Sys2Proof/Machine/Validate.lean ====
section
/-! DEFINITION. Validation, extraction, restoring the Line (44_validate.md). -/

namespace Sys2Proof.Machine

/-- `CHECK`: a driver fault first, then the comparison (44_validate.md R151). -/
def execCheck (s : State) : Host.Outcome State Fault Refusal :=
  .next (
    if s.faulted then raise .driverFault s
    else if s.sumOk then exitOk s
    else raise .checksumMismatch s)

end Sys2Proof.Machine
end

