-- ==== Sys2Proof/Machine/Dispatch.lean ====
section
/-! DEFINITION. Which meaning each instruction has. -/

namespace Sys2Proof.Machine

-- The effect of instruction i at one edge with rst = 0, before time moves on (log 10).
def exec (i : Instr) (s : State) : Host.Outcome State Fault Refusal :=
  match i with
  | .nocmd => Sys2Proof.Machine.execNocmd s
  | .read => Sys2Proof.Machine.execRead s
  | .idle => Sys2Proof.Machine.execIdle s
  | .hsLow => Sys2Proof.Machine.execHsLow s
  | .hsHigh => Sys2Proof.Machine.execHsHigh s
  | .ack1 => Sys2Proof.Machine.execAck1 s
  | .ack2 => Sys2Proof.Machine.execAck2 s
  | .ack3 => Sys2Proof.Machine.execAck3 s
  | .bitLow => Sys2Proof.Machine.execBitLow s
  | .bitHigh => Sys2Proof.Machine.execBitHigh s
  | .check => Sys2Proof.Machine.execCheck s
  | .driveLow => Sys2Proof.Machine.execDriveLow s
  | .driveHigh => Sys2Proof.Machine.execDriveHigh s
  | .sense => Sys2Proof.Machine.execSense s
  | .ok => Sys2Proof.Machine.execOk s
  | .driverFault => Sys2Proof.Machine.execDriverFault s
  | .timeout => Sys2Proof.Machine.execTimeout s
  | .checksumMismatch => Sys2Proof.Machine.execChecksumMismatch s
  | .frame h f t g c => Sys2Proof.Machine.execFrame h f t g c s
  | .bit0 => Sys2Proof.Machine.execBit0 s
  | .bit1 => Sys2Proof.Machine.execBit1 s

end Sys2Proof.Machine
end

