-- ==== Sys2Proof/Machine/Step.lean ====
section
/-! DEFINITION. One step: one rising edge of `clk`. -/

namespace Sys2Proof.Machine

/-- The step function (10_state.md R30): reset first, else the arm of the operation in `ST`; then
time moves on by one tick (00_scope.md R8). -/
def step (s : State) : Host.Outcome State Fault Refusal :=
  if s.pins.rst then .next (tick (resetEdge s))
  else
    match exec (fetch s) s with
    | .next t => .next (tick t)
    | .fault r => .fault r
    | .refused r => .refused r

/-- `s` with the table word of `nbits` bits `w` placed where the next step runs it (log 14). A
word that the decoder refuses places nothing. -/
def State.withFetchWord (s : State) (nbits w : Nat) : State :=
  match decodeTableWord nbits w with
  | some i => s.place i
  | none => s

end Sys2Proof.Machine
end

