-- ==== Sys2Proof/Machine/Scenario.lean ====
section
/-! DEFINITION. The scenario notation of 30_encoding.md R91 and the nominal waveform of R92: a
notation for streams of input ports, one entry per edge. -/

namespace Sys2Proof.Machine

/-- A run of a level: `H30` is `(.high, 30)`, `L80` is `(.low, 80)` (30_encoding.md R91). -/
abbrev Run := Level × Nat

/-- The input ports of an edge that samples a level, with nothing else asked. -/
def sample (v : Level) : Pins := { quietPins with lineIn := v }

/-- The levels of a list of runs, one entry per edge. -/
def runSamples (rs : List Run) : List Pins := rs.flatMap (fun r => List.replicate r.2 (sample r.1))

/-- The statements of 30_encoding.md R91 that add edges. `H*` and `L*` have no last edge; a scenario
here is finite and lists as many of them as it needs (log 19). -/
inductive Stmt where
  /-- `RESET`: one edge with `rst = 1`. -/
  | reset
  /-- `IDLE n`: `n` edges with `rst = 0`, `start = 0`. -/
  | idle (n : Nat)
  /-- `START`: one edge with `start = 1`, `drv_fault = 0`. -/
  | start
  /-- `START FAULT`: one edge with `start = 1`, `drv_fault = 1`. -/
  | startFault
  /-- `LINE r1 r2 ...`: the levels of `line_in` from the edge after the release edge. -/
  | line (rs : List Run)
  deriving DecidableEq, Repr

/-- The edges of the handshake, `e0 + 1` to the release edge `e_r = e0 + HS_LOW_TICKS +
HS_HIGH_TICKS` (30_encoding.md R91). -/
def handshakeEdges (p : Params) : Nat := p.hsLowUs * p.ticksPerUs + p.hsHighUs * p.ticksPerUs

/-- The input ports a statement lists. `LINE` follows `START` and begins with the edges of the
handshake, at which the level of `line_in` is immaterial. -/
def Stmt.pins (p : Params) : Stmt → List Pins
  | .reset => [{ quietPins with rst := true }]
  | .idle n => List.replicate n quietPins
  | .start => [{ quietPins with start := true }]
  | .startFault => [{ quietPins with start := true, drvFault := true }]
  | .line rs => List.replicate (handshakeEdges p) quietPins ++ runSamples rs

/-- A scenario as a stream of input ports. -/
def scenario (p : Params) (stmts : List Stmt) : List Pins := stmts.flatMap (Stmt.pins p)

/-- `FAULT @k`: `drv_fault = 1` at edge `k` of the stream `ps`, counted from its first edge, and 0
at every other edge. -/
def faultAt (k : Nat) (ps : List Pins) : List Pins :=
  ps.mapIdx (fun j q => { q with drvFault := decide (j = k) })

/-- `RESP` (30_encoding.md R92). -/
def respRuns : List Run := [(.high, 30)]

/-- `ACK`. -/
def ackRuns : List Run := [(.low, 80), (.high, 80)]

/-- `BIT0` and `BIT1`: `L50 H28` and `L50 H70`. -/
def bitRuns (b : Bool) : List Run := [(.low, 50), (.high, if b then 70 else 28)]

/-- `BYTE 0xNN`: the eight symbols of `NN`, bit 7 first. -/
def byteRuns (b : Byte) : List Run := [7, 6, 5, 4, 3, 2, 1, 0].flatMap (fun i => bitRuns (b.getLsbD i))

/-- `FRAME b0 b1 b2 b3 b4`. -/
def frameRuns (h f t g c : Byte) : List Run := [h, f, t, g, c].flatMap byteRuns

/-- `END`: the final low; the idle Line after it is listed as `n` more edges. -/
def endRuns (n : Nat) : List Run := [(.low, 50), (.high, n)]

/-- `NOMINAL b0 b1 b2 b3 b4`. -/
def nominal (h f t g c : Byte) (n : Nat) : Stmt :=
  .line (respRuns ++ ackRuns ++ frameRuns h f t g c ++ endRuns n)

/-- `s` with a scenario as its coming input. -/
def State.withScenario (s : State) (stmts : List Stmt) : State :=
  { s with pending := scenario s.params stmts }

end Sys2Proof.Machine
end

