-- ==== Sys2Proof/Safety.lean ====
section
/-! DEFINITION. The terms the claims are stated in: runs of the step function, the invariants of
10_state.md R32, the spec's tables as predicates, waveforms by their durations, and the Caller's
duties that the engine does not check. -/

namespace Sys2Proof.Machine

/-- `k` steps, stopping at the first that is no next state. -/
def run : Nat → State → Host.Outcome State Fault Refusal
  | 0, s => .next s
  | k + 1, s =>
    match step s with
    | .next t => run k t
    | .fault r => .fault r
    | .refused r => .refused r

/-- `ST` is one of the five wait operations. -/
abbrev State.inWait (s : State) : Prop :=
  s.st = .ack1 ∨ s.st = .ack2 ∨ s.st = .ack3 ∨ s.st = .bitLow ∨ s.st = .bitHigh

/-- 10_state.md R32 item 1: the engine drives exactly in `IDLE`, `HS_LOW`, `HS_HIGH`. -/
abbrev InvDirection (s : State) : Prop :=
  s.oe = .drive ↔ (s.st = .idle ∨ s.st = .hsLow ∨ s.st = .hsHigh)

/-- 10_state.md R32 item 2: `PAD.OUT = 0` exactly in `HS_LOW`. -/
abbrev InvLevel (s : State) : Prop := s.out = .low ↔ s.st = .hsLow

/-- 10_state.md R32 item 3: the idle engine is at its starting values, the Line driven high. -/
abbrev InvIdle (s : State) : Prop :=
  s.st = .idle → s.cnt = 0 ∧ s.bitn = 0 ∧ s.sr = 0 ∧ s.oe = .drive ∧ s.out = .high

/-- 10_state.md R32 item 4: what `BITN` is in each operation. -/
abbrev InvBitn (s : State) : Prop :=
  ((s.st = .hsLow ∨ s.st = .hsHigh ∨ s.st = .ack1 ∨ s.st = .ack2 ∨ s.st = .ack3) → s.bitn = 0) ∧
  ((s.st = .bitLow ∨ s.st = .bitHigh) → s.bitn ≤ 39) ∧
  (s.bitn = 40 ↔ s.st = .check)

/-- 10_state.md R32 item 5: the bits of `SR` at and above position `BITN` are zero. -/
abbrev InvSr (s : State) : Prop := s.sr.toNat < 2 ^ s.bitn

/-- 10_state.md R32 item 6: the bounds of `CNT`. -/
abbrev InvCnt (s : State) : Prop :=
  (s.st = .hsLow → s.cnt < s.hsLowTicks) ∧
  (s.st = .hsHigh → s.cnt < s.hsHighTicks) ∧
  (s.inWait → s.cnt ≤ s.timeoutTicks) ∧
  (s.st = .check → s.cnt = 0)

/-- 10_state.md R32 item 7: no result is shown while a read is in progress. -/
abbrev InvBusy (s : State) : Prop := s.st ≠ .idle → s.done = false

/-- 10_state.md R32 item 8: no outcome without `DONE`, no Measurement in an error. -/
abbrev InvResult (s : State) : Prop :=
  (s.done = false → s.code = .ok ∧ s.hum = 0 ∧ s.temp = 0) ∧
  (s.done = true ∧ s.code ≠ .ok → s.hum = 0 ∧ s.temp = 0)

/-- The invariants of 10_state.md R32. -/
abbrev Invariants (s : State) : Prop :=
  InvDirection s ∧ InvLevel s ∧ InvIdle s ∧ InvBitn s ∧ InvSr s ∧ InvCnt s ∧ InvBusy s ∧
    InvResult s

/-- The ticks a read takes at most, from its acceptance edge to its exit edge:
`N + M + 83 * (T + 1) + 1` (70_reset_and_hazards.md R214). -/
def State.readBound (s : State) : Nat :=
  s.hsLowTicks + s.hsHighTicks + 83 * (s.timeoutTicks + 1) + 1

/-- The registers of two states agree (the model's own fields may differ). -/
abbrev SameRegisters (s t : State) : Prop :=
  s.st = t.st ∧ s.bitn = t.bitn ∧ s.cnt = t.cnt ∧ s.sr = t.sr ∧ s.pad = t.pad ∧
    s.done = t.done ∧ s.code = t.code ∧ s.hum = t.hum ∧ s.temp = t.temp

/-- The Caller's duty "One read at a time" (70_reset_and_hazards.md R205): no command while busy.
The engine ignores one that comes. -/
abbrev OneReadAtATime (s : State) : Prop := s.started = true → s.busy = false

/-- The Caller's duty of 70_reset_and_hazards.md R206: at least the Sensor's recovery time between
the end of a read and the next acceptance, `idleEdges` ticks apart. `T_RECOVERY_US` is open, so what
this comes to is not known; the engine accepts a READ in the tick after an exit. Log 16. -/
def RecoveryKept (p : Params) (idleEdges : Nat) : Prop :=
  Config.tRecoveryUs * p.ticksPerUs ≤ idleEdges

/-! ### The spec's tables and pseudocode, written for claims -/

/-- The state that `exit(code, h, t)` gives (60_exceptions.md R176), every write spelled out. -/
abbrev State.exited (s : State) (code : ResCode) (h t : Byte) : State :=
  { s with
    done := true, code := code, hum := h, temp := t, sr := 0, bitn := 0, cnt := 0,
    pad := .drive .high, st := .idle }

/-- The state one tick later with the same registers: the inputs of the edge are past. -/
abbrev State.past (s : State) (k : Nat) : State :=
  { s with pending := s.pending.drop k, edge := s.edge + k }

/-- The edges at which `Fault()` is consulted: the table of 20_memory.md R57. -/
abbrev State.consultsFault (s : State) : Prop :=
  (s.st = .idle ∧ s.started = true) ∨
  (s.st = .hsLow ∧ s.cnt + 1 = s.hsLowTicks) ∨
  (s.st = .hsHigh ∧ s.cnt + 1 = s.hsHighTicks) ∨
  s.inWait ∨
  s.st = .check

/-- The level each wait waits out (45_timed_wait.md R166). -/
def waitLevel : SeqOp → Option Level
  | .ack1 => some .high
  | .ack2 => some .low
  | .ack3 => some .high
  | .bitLow => some .low
  | .bitHigh => some .high
  | .idle => none
  | .hsLow => none
  | .hsHigh => none
  | .check => none

/-- Instruction `i` at one edge is `WAIT_WHILE(level) then { complete }`: the pseudocode of
45_timed_wait.md R161, its three tests in order. -/
def WaitRule (i : Instr) (level : Level) (complete : State → State) : Prop :=
  ∀ s : State,
    (s.faulted = true → exec i s = .next (s.exited .driverFault 0 0)) ∧
    (s.faulted = false → s.lineRead ≠ level → exec i s = .next (complete s)) ∧
    (s.faulted = false → s.lineRead = level → s.timeoutTicks < s.cnt + 1 →
      exec i s = .next (s.exited .timeout 0 0)) ∧
    (s.faulted = false → s.lineRead = level → s.cnt + 1 ≤ s.timeoutTicks →
      exec i s = .next { s with cnt := s.cnt + 1 })

/-- A wait that is not failed by the driver: on to `next` if the level differs, `IDLE` if the
ceiling is exceeded, otherwise still `s.st` (45_timed_wait.md R161). -/
def State.afterPoll (s : State) (level : Level) (next : SeqOp) : SeqOp :=
  if s.faulted then .idle
  else if s.lineRead ≠ level then next
  else if s.timeoutTicks < s.cnt + 1 then .idle
  else s.st

/-- The table of 10_state.md R29: the operation after this edge, with no reset. -/
def State.nextOp (s : State) : SeqOp :=
  match s.st with
  | .idle => if s.started = true ∧ s.faulted = false then .hsLow else .idle
  | .hsLow =>
    if s.cnt + 1 = s.hsLowTicks then (if s.faulted then .idle else .hsHigh) else .hsLow
  | .hsHigh =>
    if s.cnt + 1 = s.hsHighTicks then (if s.faulted then .idle else .ack1) else .hsHigh
  | .ack1 => s.afterPoll .high .ack2
  | .ack2 => s.afterPoll .low .ack3
  | .ack3 => s.afterPoll .high .bitLow
  | .bitLow => s.afterPoll .low .bitHigh
  | .bitHigh => s.afterPoll .high (if s.bitn + 1 < 40 then .bitLow else .check)
  | .check => .idle

/-- Several instructions one after another, with no edge between them. -/
def execAll : List Instr → State → Host.Outcome State Fault Refusal
  | [], s => .next s
  | i :: is, s =>
    match exec i s with
    | .next t => execAll is t
    | .fault r => .fault r
    | .refused r => .refused r

/-- The forty symbols of a frame in order of arrival, most significant bit of each byte first
(20_memory.md R58). -/
def frameSymbols (h f t g c : Byte) : List Instr :=
  [h, f, t, g, c].flatMap fun b =>
    [7, 6, 5, 4, 3, 2, 1, 0].map fun i => if b.getLsbD i then Instr.bit1 else Instr.bit0

/-! ### Waveforms by the durations the waits measure (45_timed_wait.md R162) -/

/-- What `BIT_LOW` and `BIT_HIGH` sample for a symbol of low `l` and high `d` ticks. The first low
of the symbol ended the wait before; the last sample here is the first low of what follows. -/
def symbolSamples (l d : Nat) : List Pins :=
  List.replicate (l - 1) (sample .low) ++ List.replicate d (sample .high) ++ [sample .low]

/-- The samples of the data phase of a read whose waits measure `l k` and `d k`. -/
def dataSamples (l d : Nat → Nat) : List Pins :=
  (List.range 40).flatMap fun k => symbolSamples (l k) (d k)

/-- How long the data phase lasts. -/
def dataTicks (l d : Nat → Nat) : Nat := ∑ k ∈ Finset.range 40, (l k + d k)

/-- The frame the durations stand for: `sum over k of bit(d_k) * 2^(39 - k)` with `bit(d) = 1` if
`d > THRESH_TICKS` else 0 (43_bit_decode.md R146). -/
def dataValue (thresh : Nat) (d : Nat → Nat) : Nat :=
  ∑ k ∈ Finset.range 40, (if thresh < d k then 1 else 0) * 2 ^ (39 - k)

/-- Byte `i` of a frame given as a number (10_state.md R22). -/
def valueByte (v i : Nat) : Nat := v / 2 ^ (32 - 8 * i) % 256

/-- The low eight bits of the sum of the first four bytes of a frame (44_validate.md R152). -/
def valueSum (v : Nat) : Nat :=
  (valueByte v 0 + valueByte v 1 + valueByte v 2 + valueByte v 3) % 256

end Sys2Proof.Machine
end

