-- ==== Sys2Proof/Certificates/Slice0/Obligations.lean ====
section
/-! DEFINITION. The statements for the provers, from the numbered rules of spec/. -/

open Sys2Proof Sys2Proof.Machine

/-! ### Reset -/

/-- 70_reset_and_hazards.md R200: at an edge with `rst = 1` every register takes its reset value,
whatever `ST` and the other inputs are. -/
def Obligations.ResetEdgeGivesTheResetValues : Prop :=
  ∀ s : State, s.pins.rst = true →
    ∃ t, step s = .next t ∧
      t.st = .idle ∧ t.bitn = 0 ∧ t.cnt = 0 ∧ t.sr = 0 ∧ t.oe = .drive ∧ t.out = .high ∧
      t.done = false ∧ t.code = .ok ∧ t.hum = 0 ∧ t.temp = 0 ∧
      SameRegisters t State.reset

/-- 10_state.md R32 at the reset state. -/
def Obligations.InvariantAtReset : Prop := Invariants State.reset ∧ State.reset.params.wellFormed = true

/-! ### The Caller's command -/

/-- 40_command.md R110: in `IDLE` with no command nothing is written, at one edge and for as long as
none comes, whatever `line_in` and `drv_fault` show. -/
def Obligations.NoCommandWritesNothing : Prop :=
  (∀ s : State, s.st = .idle → s.started = false →
    exec .nocmd s = .next s ∧ exec .idle s = .next s) ∧
  (∀ (s : State) (ps rest : List Pins), s.st = .idle → s.pending = ps ++ rest →
    (∀ p ∈ ps, p.rst = false ∧ p.start = false) →
    run ps.length s = .next { s with pending := rest, edge := s.edge + ps.length })

/-- 40_command.md R111: the acceptance edge, for the command READ in `IDLE` and for the operation
IDLE that samples it. -/
def Obligations.ReadIsAcceptedInIdle : Prop :=
  ∀ s : State, s.st = .idle →
    (s.faulted = true → exec .read s = .next (s.exited .driverFault 0 0)) ∧
    (s.faulted = false → exec .read s = .next { s with
      done := false, code := .ok, hum := 0, temp := 0, sr := 0, bitn := 0, cnt := 0,
      pad := .drive .low, st := .hsLow }) ∧
    (s.started = true → exec .idle s = exec .read s)

/-- 40_command.md R112: while `ST != IDLE` the port `start` is not read; a `1` there starts nothing
and is not remembered, at the exit edge as at every other, and one at the edge after the exit is
accepted. -/
def Obligations.StartIsIgnoredWhileBusy : Prop :=
  ∀ s : State, s.st ≠ .idle →
    (∀ (p : Pins) (b : Bool), step (s.withPins { p with start := b }) = step (s.withPins p)) ∧
    (∀ t, step s = .next t → t.st = .idle → t.pins.rst = false → t.started = true →
      t.faulted = false → ∃ u, step t = .next u ∧ u.st = .hsLow ∧ u.out = .low ∧ u.cnt = 0)

/-- The rows NOCMD and READ taken alone while a read is in progress (the model's choice, log 6, after
40_command.md, `start` while busy): neither has an effect of its own; and NOCMD has none in any
state. -/
def Obligations.CommandRowsDoNothingWhileBusy : Prop :=
  (∀ s : State, s.st ≠ .idle → exec .read s = .next s) ∧ (∀ s : State, exec .nocmd s = .next s)

/-! ### The handshake -/

/-- 41_handshake.md R121. The completing edge writes `PAD.OUT` and leaves `PAD.OE`: a pad that drives
drives high, and one with `OE = 0`, `OUT = 1`, which no run has in `HS_LOW`, stays so. -/
def Obligations.HsLowCountsThenDrivesHigh : Prop :=
  ∀ s : State,
    (s.cnt + 1 ≠ s.hsLowTicks → exec .hsLow s = .next { s with cnt := s.cnt + 1 }) ∧
    (s.cnt + 1 = s.hsLowTicks → s.faulted = true →
      exec .hsLow s = .next (s.exited .driverFault 0 0)) ∧
    (s.cnt + 1 = s.hsLowTicks → s.faulted = false →
      exec .hsLow s = .next { s with
        pad := if s.oe = .drive then .drive .high else .sense, cnt := 0, st := .hsHigh })

/-- 41_handshake.md R122. The release is stated from a pad with `OUT = 1`, as it is in `HS_HIGH`
("`PAD.OUT` stays 1"); `PadShowsOneOfThreeCodes` says what it is from any other. -/
def Obligations.HsHighCountsThenReleases : Prop :=
  ∀ s : State,
    (s.cnt + 1 ≠ s.hsHighTicks → exec .hsHigh s = .next { s with cnt := s.cnt + 1 }) ∧
    (s.cnt + 1 = s.hsHighTicks → s.faulted = true →
      exec .hsHigh s = .next (s.exited .driverFault 0 0)) ∧
    (s.cnt + 1 = s.hsHighTicks → s.faulted = false → s.out = .high →
      exec .hsHigh s = .next { s with pad := .sense, cnt := 0, st := .ack1 })

/-- 41_handshake.md R123, an inference the spec marks as its own: what the pad shows in a handshake
that no fault or reset interrupts, `j` edges after the acceptance edge, whatever `start` and
`line_in` show. -/
def Obligations.HandshakePadWaveform : Prop :=
  ∀ (s : State) (p : Pins) (ps rest : List Pins) (j : Nat),
    s.params.wellFormed = true → s.st = .idle →
    s.pending = p :: ps ++ rest →
    p.rst = false → p.start = true → p.drvFault = false →
    ps.length = s.hsLowTicks + s.hsHighTicks →
    (∀ q ∈ ps, q.rst = false ∧ q.drvFault = false) →
    j ≤ s.hsLowTicks + s.hsHighTicks →
    ∃ t, run (1 + j) s = .next t ∧
      (j < s.hsLowTicks → t.padWord = 0b10 ∧ t.st = .hsLow) ∧
      (s.hsLowTicks ≤ j → j < s.hsLowTicks + s.hsHighTicks →
        t.padWord = 0b11 ∧ t.st = .hsHigh) ∧
      (j = s.hsLowTicks + s.hsHighTicks →
        t.padWord = 0b01 ∧ t.st = .ack1 ∧ t.cnt = 0 ∧ t.pending = rest)

/-! ### The timed waits -/

/-- 42_acknowledge.md R130, R131, R132 and 43_bit_decode.md R141: four of the waits, each the
construct of 45_timed_wait.md R161 with its own level and its own `then`. -/
def Obligations.AcknowledgeAndBitLowWaits : Prop :=
  WaitRule .ack1 .high (fun s => { s with cnt := 0, st := .ack2 }) ∧
  WaitRule .ack2 .low (fun s => { s with cnt := 0, st := .ack3 }) ∧
  WaitRule .ack3 .high (fun s => { s with cnt := 0, bitn := 0, st := .bitLow }) ∧
  WaitRule .bitLow .low (fun s => { s with cnt := 0, st := .bitHigh })

/-- 43_bit_decode.md R142: the fifth wait measures the high, decides the bit (1 exactly if the
duration exceeds the threshold) and shifts it in, kept to forty bits. -/
def Obligations.BitHighDecidesAndShifts : Prop :=
  WaitRule .bitHigh .high (fun s => { s with
    sr := BitVec.ofNat 40 (2 * s.sr.toNat + if s.threshTicks < s.cnt + 1 then 1 else 0)
    bitn := s.bitn + 1
    cnt := 0
    st := if s.bitn + 1 = 40 then .check else .bitLow })

/-- 45_timed_wait.md R164: a wait entered with `CNT = 0` polls as long as the Line keeps its level;
it completes, with duration `k`, if the level differs first at `el = k` for any `k` from 1 to
`T + 1`, and times out at exactly `el = T + 1` if it is still at its level there. -/
def Obligations.WaitCeilingIsExact : Prop :=
  ∀ (s : State) (v : Level) (ps : List Pins) (q : Pins) (rest : List Pins),
    waitLevel s.st = some v → s.cnt = 0 → s.pending = ps ++ q :: rest →
    (∀ p ∈ ps, p.rst = false ∧ p.drvFault = false ∧ p.lineIn = v) →
    q.rst = false → q.drvFault = false → ps.length ≤ s.timeoutTicks →
    run ps.length s = .next
      { s with cnt := ps.length, pending := q :: rest, edge := s.edge + ps.length } ∧
    (q.lineIn ≠ v → ∃ t, run (ps.length + 1) s = .next t ∧
      t.st ≠ s.st ∧ t.st ≠ .idle ∧ t.cnt = 0 ∧ t.done = s.done ∧ t.pending = rest) ∧
    (q.lineIn = v → ps.length = s.timeoutTicks → run (ps.length + 1) s = .next
      { s.exited .timeout 0 0 with pending := rest, edge := s.edge + (ps.length + 1) })

/-! ### Bits and the frame -/

/-- The rows BIT0 and BIT1 (log 9), by 43_bit_decode.md section on the shift: the old `SR[39]` is
dropped, every other bit moves up one place, the new bit becomes `SR[0]`; and the completing edge of
BIT_HIGH is one of the two, by the windows of 30_encoding.md. -/
def Obligations.SymbolsShiftTheFrameRegister : Prop :=
  ∀ (s : State) (i : Instr) (b : Bool), (i = .bit0 ∧ b = false) ∨ (i = .bit1 ∧ b = true) →
    (∃ v : FrameWord,
      exec i s = .next { s with
        sr := v, bitn := s.bitn + 1, cnt := 0,
        st := if s.bitn + 1 = 40 then .check else .bitLow } ∧
      v.getLsbD 0 = b ∧ ∀ k, k < 39 → v.getLsbD (k + 1) = s.sr.getLsbD k) ∧
    (s.faulted = false → s.lineRead = .low → decide (s.threshTicks < s.cnt + 1) = b →
      exec .bitHigh s = exec i s)

/-- The row FRAME (log 9), by 30_encoding.md section 2 and 20_memory.md section 3: its five bytes
stand in `SR` most significant first, stream bit `k` at `SR[39 - k]`, and CHECK is next. -/
def Obligations.FrameRowFillsTheFrameRegister : Prop :=
  ∀ (s : State) (h f t g c : Byte),
    ∃ v : FrameWord,
      exec (.frame h f t g c) s = .next { s with sr := v, bitn := 40, cnt := 0, st := .check } ∧
      v.toNat = h.toNat * 2 ^ 32 + f.toNat * 2 ^ 24 + t.toNat * 2 ^ 16 + g.toNat * 2 ^ 8 +
        c.toNat ∧
      ∀ k, k < 40 →
        v.getLsbD (39 - k) = ([h, f, t, g, c].getD (k / 8) 0).getLsbD (7 - k % 8)

/-- 43_bit_decode.md, the shift and the loop: forty symbols shifted in from `BITN = 0`, in order of
arrival, are the frame, whatever `SR` held before. -/
def Obligations.FortySymbolsAreTheFrame : Prop :=
  ∀ (s : State) (h f t g c : Byte), s.bitn = 0 →
    execAll (frameSymbols h f t g c) s = exec (.frame h f t g c) s

/-- 43_bit_decode.md R146, an inference the spec marks as its own: if the eighty waits measure
`l 0, d 0, …, l 39, d 39`, then at CHECK `SR` is the sum of `bit(d k) * 2^(39 - k)`; the `l k` do
not appear. -/
def Obligations.DataPhaseDecodesTheDurations : Prop :=
  ∀ (s : State) (l d : Nat → Nat) (rest : List Pins),
    s.st = .bitLow → s.bitn = 0 → s.cnt = 0 → s.sr = 0 →
    (∀ k, k < 40 → 1 ≤ l k ∧ l k ≤ s.timeoutTicks + 1 ∧ 1 ≤ d k ∧ d k ≤ s.timeoutTicks + 1) →
    s.pending = dataSamples l d ++ rest →
    run (dataTicks l d) s = .next { s with
      st := .check, bitn := 40, cnt := 0, sr := BitVec.ofNat 40 (dataValue s.threshTicks d),
      pending := rest, edge := s.edge + dataTicks l d }

/-! ### Validation and the exit sequence -/

/-- 44_validate.md R151, R152: driver fault first; then the four data bytes, added as natural
numbers and kept to eight bits, against the fifth. -/
def Obligations.CheckComparesTheChecksum : Prop :=
  ∀ s : State,
    (s.faulted = true → exec .check s = .next (s.exited .driverFault 0 0)) ∧
    (s.faulted = false → valueSum s.sr.toNat = valueByte s.sr.toNat 4 →
      exec .check s = .next (s.exited .ok (BitVec.ofNat 8 (valueByte s.sr.toNat 0))
        (BitVec.ofNat 8 (valueByte s.sr.toNat 2)))) ∧
    (s.faulted = false → valueSum s.sr.toNat ≠ valueByte s.sr.toNat 4 →
      exec .check s = .next (s.exited .checksumMismatch 0 0))

/-- The four rows of format RES (log 8), each the exit sequence of 60_exceptions.md section 2 with
its code: the errors carry nothing, OK carries bytes 0 and 2; afterwards the state differs from
the reset state only in the result. -/
def Obligations.ResultRowsAreExits : Prop :=
  ∀ s : State,
    exec .ok s = .next (s.exited .ok (BitVec.ofNat 8 (valueByte s.sr.toNat 0))
      (BitVec.ofNat 8 (valueByte s.sr.toNat 2))) ∧
    exec .driverFault s = .next (s.exited .driverFault 0 0) ∧
    exec .timeout s = .next (s.exited .timeout 0 0) ∧
    exec .checksumMismatch s = .next (s.exited .checksumMismatch 0 0) ∧
    (∀ i t, i = .ok ∨ i = .driverFault ∨ i = .timeout ∨ i = .checksumMismatch →
      exec i s = .next t →
      SameRegisters { t with done := false, code := .ok, hum := 0, temp := 0 } State.reset)

/-- The three rows of format PADC (log 7), by 20_memory.md section 2 and 30_encoding.md section 5:
what each does to the pad and the code the pad then shows; nothing else changes. -/
def Obligations.PadRowsDriveAndRelease : Prop :=
  ∀ s : State,
    exec .driveLow s = .next { s with pad := .drive .low } ∧
    exec .driveHigh s = .next { s with pad := .drive .high } ∧
    exec .sense s = .next { s with pad := .sense } ∧
    (∀ i t, exec i s = .next t →
      (i = .driveLow → t.oe = .drive ∧ t.out = .low ∧ t.padWord = 0b10) ∧
      (i = .driveHigh → t.oe = .drive ∧ t.out = .high ∧ t.padWord = 0b11) ∧
      (i = .sense → t.oe = .sense ∧ t.out = .high ∧ t.padWord = 0b01))

/-- 30_encoding.md section 6 item 2 and 93_implementation_defined.md U11: in no state does the pad
show `0b00`. What a write of one bit of the pad does: the direction is what is written and a pad
that drives keeps its level; the level is what is written while the pad drives. That a release
leaves `OUT = 1` and that a released pad keeps it, so that `0b00` cannot arise, is the model's
reading (log 12); by it the completing edge of HS_HIGH releases every pad. -/
def Obligations.PadShowsOneOfThreeCodes : Prop :=
  ∀ s : State,
    s.padWord ≠ 0b00 ∧
    (s.padWord = 0b11 ↔ s.oe = .drive ∧ s.out = .high) ∧
    (s.padWord = 0b10 ↔ s.oe = .drive ∧ s.out = .low) ∧
    (s.padWord = 0b01 ↔ s.oe = .sense) ∧
    (∀ d, (lineDir d s).oe = d) ∧ (lineDir .drive s).out = s.out ∧ (lineDir .sense s).out = .high ∧
    (∀ v, (lineLevel v s).oe = s.oe ∧ (s.oe = .drive → (lineLevel v s).out = v) ∧
      (s.oe = .sense → (lineLevel v s).out = .high)) ∧
    (s.cnt + 1 = s.hsHighTicks → s.faulted = false →
      exec .hsHigh s = .next { s with pad := .sense, cnt := 0, st := .ack1 })

/-! ### Errors -/

/-- 20_memory.md R57, 60_exceptions.md R171: at the listed edges a driver fault has no effect but
the exit sequence with DriverFault; at every other edge `drv_fault` is ignored. -/
def Obligations.DriverFaultOnlyAtLineOperations : Prop :=
  (∀ s : State, s.pins.rst = false → s.consultsFault → s.faulted = true →
    step s = .next ((s.exited .driverFault 0 0).past 1)) ∧
  (∀ (s : State) (p : Pins) (b : Bool),
    p.rst = true ∨ ¬ (s.withPins p).consultsFault →
    step (s.withPins { p with drvFault := b }) = step (s.withPins p))

/-- 60_exceptions.md, table of where each error can arise (an inference the spec marks as its own):
an outcome that appears at an edge has the cause the spec gives it. -/
def Obligations.OutcomesHaveTheirCauses : Prop :=
  ∀ s t : State, s.params.wellFormed = true → Invariants s → s.pins.rst = false → s.done = false →
    step s = .next t → t.done = true →
    (t.code = .driverFault → s.faulted = true ∧ s.consultsFault) ∧
    (t.code = .timeout → s.inWait ∧ s.cnt = s.timeoutTicks ∧ s.faulted = false ∧
      waitLevel s.st = some s.lineRead) ∧
    (t.code = .checksumMismatch → s.st = .check ∧ s.faulted = false ∧
      valueSum s.sr.toNat ≠ valueByte s.sr.toNat 4) ∧
    (t.code = .ok → s.st = .check ∧ s.faulted = false ∧
      valueSum s.sr.toNat = valueByte s.sr.toNat 4)

/-! ### The step function -/

/-- 10_state.md R30: exactly one arm applies; the function is total; `start` is read only in the
`IDLE` arm, `line_in` only in the five wait arms, `drv_fault` only at the edges of the table of
20_memory.md R57. -/
def Obligations.StepIsTotalAndReadsOnlyItsInputs : Prop :=
  (∀ s : State, s.pins.rst = true → ∃ t, step s = .next t ∧ SameRegisters t State.reset) ∧
  (∀ s : State, s.pins.rst = false →
    ∃ t, exec s.st.instr s = .next t ∧ step s = .next (t.past 1)) ∧
  (∀ (s : State) (p : Pins) (b : Bool), s.st ≠ .idle →
    step (s.withPins { p with start := b }) = step (s.withPins p)) ∧
  (∀ (s : State) (p : Pins) (v : Level), ¬ s.inWait →
    step (s.withPins { p with lineIn := v }) = step (s.withPins p)) ∧
  (∀ (s : State) (p : Pins) (b : Bool), ¬ (s.withPins p).consultsFault →
    step (s.withPins { p with drvFault := b }) = step (s.withPins p))

/-- When the code in `ST` decodes to an instruction, a step with no reset is that instruction, and
then the inputs of the edge are past (10_state.md sections 3 and 6; log 2, 10). -/
def Obligations.StepRunsTheDecodedOperation : Prop :=
  ∀ (s : State) (i : Instr), s.pins.rst = false → decode .seq s.st.code.toNat = .ok i →
    i.wellFormed = true ∧
    ∃ t, exec i s = .next t ∧ t.pending = s.pending ∧ t.edge = s.edge ∧
      step s = .next { t with pending := s.pending.tail, edge := s.edge + 1 }

/-- A table word placed by `withFetchWord` is what the very next step runs (the model's choice,
log 14). -/
def Obligations.PlacedWordRunsNext : Prop :=
  ∀ (s : State) (nbits w : Nat) (i : Instr), s.params.wellFormed = true →
    decodeTableWord nbits w = some i →
    (s.withFetchWord nbits w).pins.rst = false ∧
    ∃ t, exec i (s.withFetchWord nbits w) = .next t ∧
      step (s.withFetchWord nbits w) = .next (t.past 1)

/-- 10_state.md section 6, the graph of the operations of one read: which operation follows, and
that there is no other transition. -/
def Obligations.OperationsFollowTheGraph : Prop :=
  ∀ s t : State, s.params.wellFormed = true → Invariants s → s.pins.rst = false → step s = .next t →
    t.st = s.nextOp

/-- 10_state.md section 9 and 00_scope.md section 5: the parameters are constant over a run, and
each step takes the inputs of one edge (that they are held in a list is the model's choice, log 2,
3). -/
def Obligations.StepKeepsParametersAndTakesOneInput : Prop :=
  ∀ s t : State, step s = .next t →
    t.params = s.params ∧ t.pending = s.pending.tail ∧ t.edge = s.edge + 1

/-- 10_state.md R32, an inference the spec marks as its own: every step keeps the invariants, for
every input, and keeps the parameters in their ranges. -/
def Obligations.InvariantKeptByEveryStep : Prop :=
  ∀ s t : State, s.params.wellFormed = true → Invariants s → step s = .next t →
    Invariants t ∧ t.params.wellFormed = true

/-- 10_state.md section 9 (no hidden state) and 60_exceptions.md section 2 (failures do not leak):
the result registers influence nothing that is not a result, and a read that is accepted goes on
the same whatever they held. -/
def Obligations.OldResultInfluencesNoRead : Prop :=
  ∀ (s u u' : State) (d : Bool) (c : ResCode) (h t : Byte),
    step s = .next u →
    step { s with done := d, code := c, hum := h, temp := t } = .next u' →
    (u.st = u'.st ∧ u.bitn = u'.bitn ∧ u.cnt = u'.cnt ∧ u.sr = u'.sr ∧ u.pad = u'.pad ∧
      u.pending = u'.pending) ∧
    (s.pins.rst = false → s.st = .idle → s.started = true → u = u')

/-- 70_reset_and_hazards.md section 3 (lifetime of a result, an inference the spec marks as its own)
and 40_command.md: a result stands until the next acceptance or reset, which clear it. -/
def Obligations.ResultStandsUntilTheNextRead : Prop :=
  ∀ s t : State, Invariants s → s.done = true → step s = .next t →
    (s.pins.rst = false → s.started = false → t.result = s.result ∧ t.outputs = s.outputs) ∧
    (s.pins.rst = false → s.started = true → s.faulted = false →
      t.result = none ∧ t.hum = 0 ∧ t.temp = 0 ∧ t.code = .ok ∧ t.busy = true) ∧
    (s.pins.rst = true → t.result = none ∧ t.hum = 0 ∧ t.temp = 0 ∧ t.code = .ok)

/-- 10_state.md sections 5 and 7: what the registers `STATUS`, `DATA`, `PAD` and the output ports
show. -/
def Obligations.PortsShowTheRegisters : Prop :=
  ∀ s : State,
    (s.busy = true ↔ s.st ≠ .idle) ∧
    s.statusWord.getLsbD 0 = s.busy ∧ s.statusWord.getLsbD 1 = s.done ∧
    s.statusWord.extractLsb' 2 2 = s.code.bits ∧
    s.dataWord.extractLsb' 0 8 = s.hum ∧ s.dataWord.extractLsb' 8 8 = s.temp ∧
    s.padWord.extractLsb' 0 1 = s.outputs.lineOut ∧
    s.padWord.extractLsb' 1 1 = s.outputs.lineOe ∧
    (s.outputs.lineOe = 1 ↔ s.oe = .drive) ∧ (s.outputs.lineOut = 1 ↔ s.out = .high) ∧
    s.outputs.busy = s.busy ∧ s.outputs.done = s.done ∧ s.outputs.code = s.code.bits ∧
    s.outputs.humidity = s.hum ∧ s.outputs.temperature = s.temp ∧
    (s.result = none ↔ s.done = false)

/-! ### Whole reads -/

/-- 70_reset_and_hazards.md R214, an inference the spec marks as its own: every read ends, at most
`N + M + 83 * (T + 1) + 1` ticks after its acceptance edge, for every input stream; unless a reset
abandons it, it ends with a result. -/
def Obligations.EveryReadEndsWithinTheBound : Prop :=
  ∀ s : State, s.params.wellFormed = true → Invariants s → s.st ≠ .idle →
    ∃ k t, 1 ≤ k ∧ k ≤ s.readBound ∧ run k s = .next t ∧ t.st = .idle ∧
      (∀ j, j < k → ∃ u, run j s = .next u ∧ u.st ≠ .idle) ∧
      ((∀ j u, j < k → run j s = .next u → u.pins.rst = false) → t.done = true)

/-- 70_reset_and_hazards.md R214 and RPPAL's timeout property (45_timed_wait.md): a Sensor that never
answers gives Timeout at exactly `N + M + T + 1` ticks after acceptance, from every idle state, with
no trace of an earlier result: at every edge before, the read is still in progress and shows no
result. What `start` shows after the acceptance edge is free. -/
def Obligations.AbsentSensorGivesTimeout : Prop :=
  ∀ (s : State) (ps rest : List Pins), s.params.wellFormed = true → s.st = .idle →
    s.pending = { quietPins with start := true } :: ps ++ rest →
    ps.length = s.hsLowTicks + s.hsHighTicks + (s.timeoutTicks + 1) →
    (∀ p ∈ ps, p.rst = false ∧ p.drvFault = false ∧ p.lineIn = .high) →
    (∀ j, 1 ≤ j → j ≤ s.hsLowTicks + s.hsHighTicks + (s.timeoutTicks + 1) →
      ∃ u, run j s = .next u ∧ u.st ≠ .idle ∧ u.result = none) ∧
    ∃ t, run (1 + (s.hsLowTicks + s.hsHighTicks + (s.timeoutTicks + 1))) s = .next t ∧
      t.st = .idle ∧ t.result = some (.err .timeout) ∧ t.pending = rest ∧
      SameRegisters { t with done := false, code := .ok } State.reset

/-- RPPAL's checksum property (95_test_vectors.md S3) over the whole step function: a read whose
waits measure `n + 1`, `a`, `b` (acknowledgment) and `l k`, `d k` (data), all within the ceiling,
ends at `N + M + D + 1` ticks after acceptance; it delivers bytes 0 and 2 of the frame that the
high durations stand for if the checksum holds, and ChecksumMismatch otherwise. -/
def Obligations.WholeReadDeliversTheMeasurement : Prop :=
  ∀ (s : State) (n a b : Nat) (l d : Nat → Nat) (p : Pins) (rest : List Pins),
    s.params.wellFormed = true → s.st = .idle →
    n ≤ s.timeoutTicks → 1 ≤ a → a ≤ s.timeoutTicks + 1 → 1 ≤ b → b ≤ s.timeoutTicks + 1 →
    (∀ k, k < 40 → 1 ≤ l k ∧ l k ≤ s.timeoutTicks + 1 ∧ 1 ≤ d k ∧ d k ≤ s.timeoutTicks + 1) →
    p.rst = false → p.drvFault = false →
    s.pending = { quietPins with start := true } ::
      (List.replicate (s.hsLowTicks + s.hsHighTicks) quietPins ++
        (List.replicate n (sample .high) ++ List.replicate a (sample .low) ++
          List.replicate b (sample .high) ++ [sample .low]) ++
        dataSamples l d ++ p :: rest) →
    ∃ t, run (1 + (s.hsLowTicks + s.hsHighTicks + (n + 1 + a + b + dataTicks l d) + 1)) s =
        .next t ∧
      t.st = .idle ∧ t.oe = .drive ∧ t.out = .high ∧ t.sr = 0 ∧ t.pending = rest ∧
      (valueSum (dataValue s.threshTicks d) = valueByte (dataValue s.threshTicks d) 4 →
        t.result = some (.ok
          { humidity := BitVec.ofNat 8 (valueByte (dataValue s.threshTicks d) 0)
            temperature := BitVec.ofNat 8 (valueByte (dataValue s.threshTicks d) 2) })) ∧
      (valueSum (dataValue s.threshTicks d) ≠ valueByte (dataValue s.threshTicks d) 4 →
        t.result = some (.err .checksumMismatch))

/-! ### Encodings -/

/-- Every instruction's word decodes to it, in its own format, with every operand at every value
(30_encoding.md sections 2 and 5). -/
def Obligations.DecodeOfEncodeIsTheInstruction : Prop :=
  ∀ i : Instr, i.wellFormed = true → decode (encode i).format (encode i).bits = .ok i

/-- The other direction: a word that decodes is the word of its instruction, so no two words of a
format stand for one instruction; and exactly the legal words decode (30_encoding.md sections 5 and
6). That the decoder refuses the words of section 6, which the spec says do not occur, is the
model's choice (log 12). -/
def Obligations.DecodedWordsAreTheirEncodings : Prop :=
  (∀ (f : Format) (w : Nat) (i : Instr), decode f w = .ok i → encode i = { format := f, bits := w }) ∧
  (∀ (f : Format) (w : Nat),
    (∃ i, decode f w = .ok i) ↔ (CodeWord.mk f w).wellFormed = true)

/-- The MODEL'S CHOICE (log 12): the decoder refuses by name the codes that 30_encoding.md section 6
says are unreachable or never occur (`SEQ` 9 to 15, `PADC` `0b00`), and a word with a bit above its
format's width. The spec gives no decoder and no refusal; there nothing traps as an illegal
encoding. -/
def Obligations.ReservedWordsAreRefusedByName : Prop :=
  (∀ w, 9 ≤ w → w < 16 → decode .seq w = .error .reservedSeqCode) ∧
  decode .padc 0 = .error .senseWithOutLow ∧
  (∀ (f : Format) (w : Nat), 2 ^ f.width ≤ w → decode f w = .error .tooWide)

/-- Words written out from 30_encoding.md R85 to R88 and R81, one of each format. -/
def Obligations.WrittenWordsDecode : Prop :=
  decode .cmd 0b1 = .ok .read ∧
  decode .seq 0b0101 = .ok .ack3 ∧
  decode .seq 0b1000 = .ok .check ∧
  decode .padc 0b01 = .ok .sense ∧
  decode .res 0b11 = .ok .checksumMismatch ∧
  decode .sym 0b1 = .ok .bit1 ∧
  decode .wire40 0b0011001000000000000110110000000001001101 =
    .ok (.frame 0x32 0x00 0x1B 0x00 0x4D)
end

