-- ==== Sys2Proof/Laws/Decode.lean ====
section
/-! SUPPORT. The small lemmas of the definitions of WellFormed.lean and Decode.lean. -/

namespace Sys2Proof

theorem CodeWord.wellFormed_iff (w : CodeWord) :
    w.wellFormed = true ↔ w.bits < 2 ^ w.format.width ∧ w.notReserved = true := by
  simp only [Bool.and_eq_true, decide_eq_true_eq]

theorem Params.wellFormed_iff (p : Params) :
    p.wellFormed = true ↔
      1 ≤ p.ticksPerUs ∧ 18000 ≤ p.hsLowUs ∧ 20 ≤ p.hsHighUs ∧ p.hsHighUs ≤ 40 := by
  simp only [Bool.and_eq_true, decide_eq_true_eq, and_assoc]

/-- Byte `i` of a frame word, as arithmetic. -/
theorem frameByte_toNat (v : FrameWord) (i : Nat) :
    (frameByte v i).toNat = v.toNat / 2 ^ (32 - 8 * i) % 256 := by
  simp [frameByte, Nat.shiftRight_eq_div_pow]

/-- Five bytes fit the frame word. -/
theorem frameWord_toNat (h f t g c : Byte) : (frameWord h f t g c).toNat =
    h.toNat * 2 ^ 32 + f.toNat * 2 ^ 24 + t.toNat * 2 ^ 16 + g.toNat * 2 ^ 8 + c.toNat := by
  have := h.isLt
  have := f.isLt
  have := t.isLt
  have := g.isLt
  have := c.isLt
  simp only [frameWord, BitVec.toNat_ofNat]
  omega

end Sys2Proof
end

