-- ==== Sys2Proof/Laws/State.lean ====
section
/-! SUPPORT. One lemma per field of State and named update: later proofs cite these and unfold no
record update. -/

namespace Sys2Proof

/-! ### The two bits of the pad -/

@[simp] theorem Pad.dir_drive (v : Level) : (Pad.drive v).dir = .drive := rfl
@[simp] theorem Pad.dir_sense : Pad.sense.dir = .sense := rfl
@[simp] theorem Pad.level_drive (v : Level) : (Pad.drive v).level = v := rfl
@[simp] theorem Pad.level_sense : Pad.sense.level = .high := rfl

/-- A write of the direction is what `OE` then reads. -/
@[simp] theorem Pad.dir_withDir (p : Pad) (d : Direction) : (p.withDir d).dir = d := by
  cases d <;> rfl

/-- A write of the level leaves `OE` alone. -/
@[simp] theorem Pad.dir_withLevel (p : Pad) (v : Level) : (p.withLevel v).dir = p.dir := by
  cases p <;> rfl

/-- While the pad drives, a write of the level is what `OUT` then reads. -/
theorem Pad.level_withLevel {p : Pad} (h : p.dir = .drive) (v : Level) :
    (p.withLevel v).level = v := by
  cases p with
  | drive => rfl
  | sense => cases h

/-- The two bits tell the pad code. -/
theorem Pad.ext_bits {p q : Pad} (hd : p.dir = q.dir) (hl : p.level = q.level) : p = q := by
  cases p <;> cases q <;> cases hd <;> first | rfl | exact congrArg _ hl

/-- Every pad shows `OUT = 1` after a write of `HIGH`, a released one too. -/
@[simp] theorem Pad.level_withLevel_high (p : Pad) : (p.withLevel .high).level = .high := by
  cases p <;> rfl

/-- Direction then level at one edge (20_memory.md R62): the pad drives that level. -/
@[simp] theorem Pad.withLevel_withDir_drive (p : Pad) (v : Level) :
    (p.withDir .drive).withLevel v = .drive v := rfl

/-- A release, from any pad. -/
@[simp] theorem Pad.withDir_sense (p : Pad) : p.withDir .sense = .sense := rfl

end Sys2Proof

namespace Sys2Proof.Machine

/-! ### `lineDir` -/

@[simp] theorem lineDir_st (d : Direction) (s : State) : (lineDir d s).st = s.st := rfl
@[simp] theorem lineDir_bitn (d : Direction) (s : State) : (lineDir d s).bitn = s.bitn := rfl
@[simp] theorem lineDir_cnt (d : Direction) (s : State) : (lineDir d s).cnt = s.cnt := rfl
@[simp] theorem lineDir_sr (d : Direction) (s : State) : (lineDir d s).sr = s.sr := rfl
@[simp] theorem lineDir_pad (d : Direction) (s : State) : (lineDir d s).pad = s.pad.withDir d := rfl
@[simp] theorem lineDir_oe (d : Direction) (s : State) : (lineDir d s).oe = d := by cases d <;> rfl
@[simp] theorem lineDir_drive_out (s : State) : (lineDir .drive s).out = s.out := rfl
@[simp] theorem lineDir_sense_out (s : State) : (lineDir .sense s).out = .high := rfl
@[simp] theorem lineDir_done (d : Direction) (s : State) : (lineDir d s).done = s.done := rfl
@[simp] theorem lineDir_code (d : Direction) (s : State) : (lineDir d s).code = s.code := rfl
@[simp] theorem lineDir_hum (d : Direction) (s : State) : (lineDir d s).hum = s.hum := rfl
@[simp] theorem lineDir_temp (d : Direction) (s : State) : (lineDir d s).temp = s.temp := rfl
@[simp] theorem lineDir_params (d : Direction) (s : State) : (lineDir d s).params = s.params := rfl
@[simp] theorem lineDir_pending (d : Direction) (s : State) : (lineDir d s).pending = s.pending := rfl
@[simp] theorem lineDir_edge (d : Direction) (s : State) : (lineDir d s).edge = s.edge := rfl

/-! ### `lineLevel` -/

@[simp] theorem lineLevel_st (v : Level) (s : State) : (lineLevel v s).st = s.st := rfl
@[simp] theorem lineLevel_bitn (v : Level) (s : State) : (lineLevel v s).bitn = s.bitn := rfl
@[simp] theorem lineLevel_cnt (v : Level) (s : State) : (lineLevel v s).cnt = s.cnt := rfl
@[simp] theorem lineLevel_sr (v : Level) (s : State) : (lineLevel v s).sr = s.sr := rfl
@[simp] theorem lineLevel_pad (v : Level) (s : State) : (lineLevel v s).pad = s.pad.withLevel v := rfl
@[simp] theorem lineLevel_oe (v : Level) (s : State) : (lineLevel v s).oe = s.oe := Pad.dir_withLevel s.pad v
theorem lineLevel_out_of_drive {v : Level} {s : State} (h : s.oe = .drive) :
    (lineLevel v s).out = v := Pad.level_withLevel h v
@[simp] theorem lineLevel_high_out (s : State) : (lineLevel .high s).out = .high :=
  Pad.level_withLevel_high s.pad
@[simp] theorem lineLevel_done (v : Level) (s : State) : (lineLevel v s).done = s.done := rfl
@[simp] theorem lineLevel_code (v : Level) (s : State) : (lineLevel v s).code = s.code := rfl
@[simp] theorem lineLevel_hum (v : Level) (s : State) : (lineLevel v s).hum = s.hum := rfl
@[simp] theorem lineLevel_temp (v : Level) (s : State) : (lineLevel v s).temp = s.temp := rfl
@[simp] theorem lineLevel_params (v : Level) (s : State) : (lineLevel v s).params = s.params := rfl
@[simp] theorem lineLevel_pending (v : Level) (s : State) : (lineLevel v s).pending = s.pending := rfl
@[simp] theorem lineLevel_edge (v : Level) (s : State) : (lineLevel v s).edge = s.edge := rfl

/-! ### `exitRead` -/

@[simp] theorem exitRead_st (c : ResCode) (h t : Byte) (s : State) : (exitRead c h t s).st = .idle := rfl
@[simp] theorem exitRead_bitn (c : ResCode) (h t : Byte) (s : State) : (exitRead c h t s).bitn = 0 := rfl
@[simp] theorem exitRead_cnt (c : ResCode) (h t : Byte) (s : State) : (exitRead c h t s).cnt = 0 := rfl
@[simp] theorem exitRead_sr (c : ResCode) (h t : Byte) (s : State) : (exitRead c h t s).sr = 0 := rfl
@[simp] theorem exitRead_pad (c : ResCode) (h t : Byte) (s : State) : (exitRead c h t s).pad = .drive .high := rfl
@[simp] theorem exitRead_oe (c : ResCode) (h t : Byte) (s : State) : (exitRead c h t s).oe = .drive := rfl
@[simp] theorem exitRead_out (c : ResCode) (h t : Byte) (s : State) : (exitRead c h t s).out = .high := rfl
@[simp] theorem exitRead_done (c : ResCode) (h t : Byte) (s : State) : (exitRead c h t s).done = true := rfl
@[simp] theorem exitRead_code (c : ResCode) (h t : Byte) (s : State) : (exitRead c h t s).code = c := rfl
@[simp] theorem exitRead_hum (c : ResCode) (h t : Byte) (s : State) : (exitRead c h t s).hum = h := rfl
@[simp] theorem exitRead_temp (c : ResCode) (h t : Byte) (s : State) : (exitRead c h t s).temp = t := rfl
@[simp] theorem exitRead_params (c : ResCode) (h t : Byte) (s : State) : (exitRead c h t s).params = s.params := rfl
@[simp] theorem exitRead_pending (c : ResCode) (h t : Byte) (s : State) : (exitRead c h t s).pending = s.pending := rfl
@[simp] theorem exitRead_edge (c : ResCode) (h t : Byte) (s : State) : (exitRead c h t s).edge = s.edge := rfl

/-! ### `raise` -/

@[simp] theorem raise_st (e : ReadError) (s : State) : (raise e s).st = .idle := rfl
@[simp] theorem raise_bitn (e : ReadError) (s : State) : (raise e s).bitn = 0 := rfl
@[simp] theorem raise_cnt (e : ReadError) (s : State) : (raise e s).cnt = 0 := rfl
@[simp] theorem raise_sr (e : ReadError) (s : State) : (raise e s).sr = 0 := rfl
@[simp] theorem raise_pad (e : ReadError) (s : State) : (raise e s).pad = .drive .high := rfl
@[simp] theorem raise_oe (e : ReadError) (s : State) : (raise e s).oe = .drive := rfl
@[simp] theorem raise_out (e : ReadError) (s : State) : (raise e s).out = .high := rfl
@[simp] theorem raise_done (e : ReadError) (s : State) : (raise e s).done = true := rfl
@[simp] theorem raise_code (e : ReadError) (s : State) : (raise e s).code = e.code := rfl
@[simp] theorem raise_hum (e : ReadError) (s : State) : (raise e s).hum = 0 := rfl
@[simp] theorem raise_temp (e : ReadError) (s : State) : (raise e s).temp = 0 := rfl
@[simp] theorem raise_params (e : ReadError) (s : State) : (raise e s).params = s.params := rfl
@[simp] theorem raise_pending (e : ReadError) (s : State) : (raise e s).pending = s.pending := rfl
@[simp] theorem raise_edge (e : ReadError) (s : State) : (raise e s).edge = s.edge := rfl

/-! ### `exitOk` -/

@[simp] theorem exitOk_st (s : State) : (exitOk s).st = .idle := rfl
@[simp] theorem exitOk_bitn (s : State) : (exitOk s).bitn = 0 := rfl
@[simp] theorem exitOk_cnt (s : State) : (exitOk s).cnt = 0 := rfl
@[simp] theorem exitOk_sr (s : State) : (exitOk s).sr = 0 := rfl
@[simp] theorem exitOk_pad (s : State) : (exitOk s).pad = .drive .high := rfl
@[simp] theorem exitOk_oe (s : State) : (exitOk s).oe = .drive := rfl
@[simp] theorem exitOk_out (s : State) : (exitOk s).out = .high := rfl
@[simp] theorem exitOk_done (s : State) : (exitOk s).done = true := rfl
@[simp] theorem exitOk_code (s : State) : (exitOk s).code = .ok := rfl
@[simp] theorem exitOk_hum (s : State) : (exitOk s).hum = s.byte 0 := rfl
@[simp] theorem exitOk_temp (s : State) : (exitOk s).temp = s.byte 2 := rfl
@[simp] theorem exitOk_params (s : State) : (exitOk s).params = s.params := rfl
@[simp] theorem exitOk_pending (s : State) : (exitOk s).pending = s.pending := rfl
@[simp] theorem exitOk_edge (s : State) : (exitOk s).edge = s.edge := rfl

/-! ### `countTick` -/

@[simp] theorem countTick_st (s : State) : (countTick s).st = s.st := rfl
@[simp] theorem countTick_bitn (s : State) : (countTick s).bitn = s.bitn := rfl
@[simp] theorem countTick_cnt (s : State) : (countTick s).cnt = s.el := rfl
@[simp] theorem countTick_sr (s : State) : (countTick s).sr = s.sr := rfl
@[simp] theorem countTick_pad (s : State) : (countTick s).pad = s.pad := rfl
@[simp] theorem countTick_oe (s : State) : (countTick s).oe = s.oe := rfl
@[simp] theorem countTick_out (s : State) : (countTick s).out = s.out := rfl
@[simp] theorem countTick_done (s : State) : (countTick s).done = s.done := rfl
@[simp] theorem countTick_code (s : State) : (countTick s).code = s.code := rfl
@[simp] theorem countTick_hum (s : State) : (countTick s).hum = s.hum := rfl
@[simp] theorem countTick_temp (s : State) : (countTick s).temp = s.temp := rfl
@[simp] theorem countTick_params (s : State) : (countTick s).params = s.params := rfl
@[simp] theorem countTick_pending (s : State) : (countTick s).pending = s.pending := rfl
@[simp] theorem countTick_edge (s : State) : (countTick s).edge = s.edge := rfl

/-! ### `enter` -/

@[simp] theorem enter_st (o : SeqOp) (s : State) : (enter o s).st = o := rfl
@[simp] theorem enter_bitn (o : SeqOp) (s : State) : (enter o s).bitn = s.bitn := rfl
@[simp] theorem enter_cnt (o : SeqOp) (s : State) : (enter o s).cnt = 0 := rfl
@[simp] theorem enter_sr (o : SeqOp) (s : State) : (enter o s).sr = s.sr := rfl
@[simp] theorem enter_pad (o : SeqOp) (s : State) : (enter o s).pad = s.pad := rfl
@[simp] theorem enter_oe (o : SeqOp) (s : State) : (enter o s).oe = s.oe := rfl
@[simp] theorem enter_out (o : SeqOp) (s : State) : (enter o s).out = s.out := rfl
@[simp] theorem enter_done (o : SeqOp) (s : State) : (enter o s).done = s.done := rfl
@[simp] theorem enter_code (o : SeqOp) (s : State) : (enter o s).code = s.code := rfl
@[simp] theorem enter_hum (o : SeqOp) (s : State) : (enter o s).hum = s.hum := rfl
@[simp] theorem enter_temp (o : SeqOp) (s : State) : (enter o s).temp = s.temp := rfl
@[simp] theorem enter_params (o : SeqOp) (s : State) : (enter o s).params = s.params := rfl
@[simp] theorem enter_pending (o : SeqOp) (s : State) : (enter o s).pending = s.pending := rfl
@[simp] theorem enter_edge (o : SeqOp) (s : State) : (enter o s).edge = s.edge := rfl

/-! ### `completeBit` -/

@[simp] theorem completeBit_st (b : Bool) (s : State) : (completeBit b s).st = if s.bitn + 1 = Config.nBits then .check else .bitLow := rfl
@[simp] theorem completeBit_bitn (b : Bool) (s : State) : (completeBit b s).bitn = s.bitn + 1 := rfl
@[simp] theorem completeBit_cnt (b : Bool) (s : State) : (completeBit b s).cnt = 0 := rfl
@[simp] theorem completeBit_sr (b : Bool) (s : State) : (completeBit b s).sr = shiftIn s.sr b := rfl
@[simp] theorem completeBit_pad (b : Bool) (s : State) : (completeBit b s).pad = s.pad := rfl
@[simp] theorem completeBit_oe (b : Bool) (s : State) : (completeBit b s).oe = s.oe := rfl
@[simp] theorem completeBit_out (b : Bool) (s : State) : (completeBit b s).out = s.out := rfl
@[simp] theorem completeBit_done (b : Bool) (s : State) : (completeBit b s).done = s.done := rfl
@[simp] theorem completeBit_code (b : Bool) (s : State) : (completeBit b s).code = s.code := rfl
@[simp] theorem completeBit_hum (b : Bool) (s : State) : (completeBit b s).hum = s.hum := rfl
@[simp] theorem completeBit_temp (b : Bool) (s : State) : (completeBit b s).temp = s.temp := rfl
@[simp] theorem completeBit_params (b : Bool) (s : State) : (completeBit b s).params = s.params := rfl
@[simp] theorem completeBit_pending (b : Bool) (s : State) : (completeBit b s).pending = s.pending := rfl
@[simp] theorem completeBit_edge (b : Bool) (s : State) : (completeBit b s).edge = s.edge := rfl

/-! ### `resetEdge` -/

@[simp] theorem resetEdge_st (s : State) : (resetEdge s).st = .idle := rfl
@[simp] theorem resetEdge_bitn (s : State) : (resetEdge s).bitn = 0 := rfl
@[simp] theorem resetEdge_cnt (s : State) : (resetEdge s).cnt = 0 := rfl
@[simp] theorem resetEdge_sr (s : State) : (resetEdge s).sr = 0 := rfl
@[simp] theorem resetEdge_pad (s : State) : (resetEdge s).pad = .drive .high := rfl
@[simp] theorem resetEdge_oe (s : State) : (resetEdge s).oe = .drive := rfl
@[simp] theorem resetEdge_out (s : State) : (resetEdge s).out = .high := rfl
@[simp] theorem resetEdge_done (s : State) : (resetEdge s).done = false := rfl
@[simp] theorem resetEdge_code (s : State) : (resetEdge s).code = .ok := rfl
@[simp] theorem resetEdge_hum (s : State) : (resetEdge s).hum = 0 := rfl
@[simp] theorem resetEdge_temp (s : State) : (resetEdge s).temp = 0 := rfl
@[simp] theorem resetEdge_params (s : State) : (resetEdge s).params = s.params := rfl
@[simp] theorem resetEdge_pending (s : State) : (resetEdge s).pending = s.pending := rfl
@[simp] theorem resetEdge_edge (s : State) : (resetEdge s).edge = s.edge := rfl

/-! ### `tick` -/

@[simp] theorem tick_st (s : State) : (tick s).st = s.st := rfl
@[simp] theorem tick_bitn (s : State) : (tick s).bitn = s.bitn := rfl
@[simp] theorem tick_cnt (s : State) : (tick s).cnt = s.cnt := rfl
@[simp] theorem tick_sr (s : State) : (tick s).sr = s.sr := rfl
@[simp] theorem tick_pad (s : State) : (tick s).pad = s.pad := rfl
@[simp] theorem tick_oe (s : State) : (tick s).oe = s.oe := rfl
@[simp] theorem tick_out (s : State) : (tick s).out = s.out := rfl
@[simp] theorem tick_done (s : State) : (tick s).done = s.done := rfl
@[simp] theorem tick_code (s : State) : (tick s).code = s.code := rfl
@[simp] theorem tick_hum (s : State) : (tick s).hum = s.hum := rfl
@[simp] theorem tick_temp (s : State) : (tick s).temp = s.temp := rfl
@[simp] theorem tick_params (s : State) : (tick s).params = s.params := rfl
@[simp] theorem tick_pending (s : State) : (tick s).pending = s.pending.tail := rfl
@[simp] theorem tick_edge (s : State) : (tick s).edge = s.edge + 1 := rfl

/-! ### `State.withPins` -/

@[simp] theorem State.withPins_st (s : State) (p : Pins) : (s.withPins p).st = s.st := rfl
@[simp] theorem State.withPins_bitn (s : State) (p : Pins) : (s.withPins p).bitn = s.bitn := rfl
@[simp] theorem State.withPins_cnt (s : State) (p : Pins) : (s.withPins p).cnt = s.cnt := rfl
@[simp] theorem State.withPins_sr (s : State) (p : Pins) : (s.withPins p).sr = s.sr := rfl
@[simp] theorem State.withPins_pad (s : State) (p : Pins) : (s.withPins p).pad = s.pad := rfl
@[simp] theorem State.withPins_oe (s : State) (p : Pins) : (s.withPins p).oe = s.oe := rfl
@[simp] theorem State.withPins_out (s : State) (p : Pins) : (s.withPins p).out = s.out := rfl
@[simp] theorem State.withPins_done (s : State) (p : Pins) : (s.withPins p).done = s.done := rfl
@[simp] theorem State.withPins_code (s : State) (p : Pins) : (s.withPins p).code = s.code := rfl
@[simp] theorem State.withPins_hum (s : State) (p : Pins) : (s.withPins p).hum = s.hum := rfl
@[simp] theorem State.withPins_temp (s : State) (p : Pins) : (s.withPins p).temp = s.temp := rfl
@[simp] theorem State.withPins_params (s : State) (p : Pins) : (s.withPins p).params = s.params := rfl
@[simp] theorem State.withPins_pending (s : State) (p : Pins) : (s.withPins p).pending = p :: s.pending.tail := rfl
@[simp] theorem State.withPins_edge (s : State) (p : Pins) : (s.withPins p).edge = s.edge := rfl

/-! ### The input ports and the tick constants, through an update -/

@[simp] theorem State.pins_withPins (s : State) (p : Pins) : (s.withPins p).pins = p := rfl

/-- With an input listed, the ports of the coming edge are the first of the list. -/
theorem State.pins_of_cons {s : State} {p : Pins} {ps : List Pins} (h : s.pending = p :: ps) :
    s.pins = p := by simp [State.pins, h]

/-- The ports of the coming edge depend on `pending` and `edge` alone. -/
theorem State.pins_congr {s t : State} (hp : s.pending = t.pending) (he : s.edge = t.edge) :
    s.pins = t.pins := by simp [State.pins, hp, he]

@[simp] theorem tick_threshTicks (s : State) : (tick s).threshTicks = s.threshTicks := rfl
@[simp] theorem tick_timeoutTicks (s : State) : (tick s).timeoutTicks = s.timeoutTicks := rfl
@[simp] theorem tick_hsLowTicks (s : State) : (tick s).hsLowTicks = s.hsLowTicks := rfl
@[simp] theorem tick_hsHighTicks (s : State) : (tick s).hsHighTicks = s.hsHighTicks := rfl

end Sys2Proof.Machine
end

