-- ==== Sys2Proof/Laws/Ops.lean ====
section
/-! SUPPORT. What each shared operation can do, said once: provers cite these and do not unfold the
operations. -/

namespace Sys2Proof.Machine

/-! ### Tick constants and the checksum, as arithmetic -/

/-- Parameters in their ranges make every tick constant positive (00_scope.md R7). -/
theorem ticks_pos {s : State} (hw : s.params.wellFormed = true) :
    1 ≤ s.threshTicks ∧ s.threshTicks < s.timeoutTicks ∧ 1 ≤ s.hsLowTicks ∧
      1 ≤ s.hsHighTicks := by
  obtain ⟨h1, h2, h3, h4⟩ := (Params.wellFormed_iff _).mp hw
  simp only [State.threshTicks, State.timeoutTicks, State.hsLowTicks, State.hsHighTicks,
    Config.threshUs, Config.timeoutUs]
  exact ⟨by omega, by omega, Nat.mul_pos (by omega) h1, Nat.mul_pos (by omega) h1⟩

theorem frameByte_eq_valueByte (v : FrameWord) (i : Nat) :
    frameByte v i = BitVec.ofNat 8 (valueByte v.toNat i) := by
  apply BitVec.eq_of_toNat_eq
  simp [frameByte_toNat, valueByte]

theorem sumOk_iff (s : State) :
    s.sumOk = true ↔ valueSum s.sr.toNat = valueByte s.sr.toNat 4 := by
  simp only [State.sumOk, frameSum, frameByte_eq_valueByte, decide_eq_true_eq]
  rw [← BitVec.toNat_inj]
  simp [valueSum, valueByte]

/-! ### Acceptance -/

theorem acceptRead_of_faulted {s : State} (h : s.faulted = true) :
    acceptRead s = raise .driverFault s := by simp [acceptRead, h]

theorem acceptRead_of_not_faulted {s : State} (h : s.faulted = false) :
    acceptRead s = { s with
      done := false, code := .ok, hum := 0, temp := 0, sr := 0, bitn := 0, cnt := 0,
      st := .hsLow, pad := .drive .low } := by
  simp [acceptRead, h, lineLevel, lineDir]

/-! ### The timed wait: its four outcomes, in the order of its tests -/

theorem waitWhile_of_faulted {s : State} {v : Level} {k : State → State}
    (h : s.faulted = true) : waitWhile v k s = raise .driverFault s := by simp [waitWhile, h]

theorem waitWhile_of_differs {s : State} {v : Level} {k : State → State}
    (h : s.faulted = false) (hd : s.lineRead ≠ v) : waitWhile v k s = k s := by
  simp [waitWhile, h, State.differs, hd]

theorem waitWhile_of_expired {s : State} {v : Level} {k : State → State}
    (h : s.faulted = false) (hd : s.lineRead = v) (he : s.timeoutTicks < s.el) :
    waitWhile v k s = raise .timeout s := by
  simp [waitWhile, h, State.differs, State.expired, hd, he]

theorem waitWhile_of_polling {s : State} {v : Level} {k : State → State}
    (h : s.faulted = false) (hd : s.lineRead = v) (he : s.el ≤ s.timeoutTicks) :
    waitWhile v k s = countTick s := by
  simp [waitWhile, h, State.differs, State.expired, hd, Nat.not_lt.mpr he]

/-- One edge of a wait does exactly one of four things. -/
theorem waitWhile_cases (v : Level) (k : State → State) (s : State) :
    (s.faulted = true ∧ waitWhile v k s = raise .driverFault s) ∨
    (s.faulted = false ∧ s.lineRead ≠ v ∧ waitWhile v k s = k s) ∨
    (s.faulted = false ∧ s.lineRead = v ∧ s.timeoutTicks < s.el ∧
      waitWhile v k s = raise .timeout s) ∨
    (s.faulted = false ∧ s.lineRead = v ∧ s.el ≤ s.timeoutTicks ∧
      waitWhile v k s = countTick s) := by
  by_cases hf : s.faulted = true
  · exact .inl ⟨hf, waitWhile_of_faulted hf⟩
  · have hf : s.faulted = false := by simpa using hf
    by_cases hd : s.lineRead = v
    · by_cases he : s.timeoutTicks < s.el
      · exact .inr (.inr (.inl ⟨hf, hd, he, waitWhile_of_expired hf hd he⟩))
      · have he := Nat.not_lt.mp he
        exact .inr (.inr (.inr ⟨hf, hd, he, waitWhile_of_polling hf hd he⟩))
    · exact .inr (.inl ⟨hf, hd, waitWhile_of_differs hf hd⟩)

/-- Where `ST` goes at one edge of a wait. -/
theorem waitWhile_st (v : Level) (k : State → State) (s : State) :
    (waitWhile v k s).st = s.afterPoll v (k s).st := by
  rcases waitWhile_cases v k s with ⟨a, b⟩ | ⟨a, b, c⟩ | ⟨a, b, c, d⟩ | ⟨a, b, c, d⟩
  · rw [b]; simp [State.afterPoll, a]
  · rw [c]; simp [State.afterPoll, a, b]
  · rw [d]; simp [State.afterPoll, a, b]; simp [State.el] at c; omega
  · rw [d]; simp [State.afterPoll, a, b]; simp [State.el] at c; omega

/-! ### The shift -/

/-- The shift as arithmetic: twice the old value plus the bit, kept to forty bits. -/
theorem shiftIn_toNat (v : FrameWord) (b : Bool) :
    (shiftIn v b).toNat = (2 * v.toNat + b.toNat) % 2 ^ 40 := by
  have hor : ∀ x : Nat, 2 * x ||| b.toNat = 2 * x + b.toNat := by
    intro x
    cases b
    · simp
    · simpa using (Nat.two_pow_add_eq_or_of_lt (i := 1) (b := 1) (by omega) x).symm
  have hb : ((BitVec.ofBool b).setWidth 40).toNat = b.toNat := by cases b <;> rfl
  have hmod : 2 * v.toNat % 2 ^ 40 = 2 * (v.toNat % 2 ^ 39) := by omega
  have hlt : b.toNat < 2 := by cases b <;> decide
  rw [shiftIn, BitVec.toNat_or, hb, BitVec.toNat_shiftLeft, Nat.shiftLeft_eq,
    Nat.mul_comm, pow_one, hmod, hor]
  omega

/-! ### One step -/

/-- The two kinds of edge: a reset edge, and one that runs the operation in `ST`. -/
theorem step_cases {s u : State} (h : step s = .next u) :
    (s.pins.rst = true ∧ u = tick (resetEdge s)) ∨
    (s.pins.rst = false ∧ ∃ t, exec (fetch s) s = .next t ∧ u = tick t) := by
  unfold step at h
  split at h
  · case isTrue hr => exact .inl ⟨hr, by simpa using h.symm⟩
  · case isFalse hr =>
    refine .inr ⟨by simpa using hr, ?_⟩
    split at h
    · case h_1 t ht => exact ⟨t, ht, by simpa using h.symm⟩
    · cases h
    · cases h

theorem step_of_rst {s : State} (h : s.pins.rst = true) : step s = .next (tick (resetEdge s)) := by
  simp [step, h]

theorem step_of_exec {s t : State} (h : s.pins.rst = false) (he : exec (fetch s) s = .next t) :
    step s = .next (tick t) := by
  simp [step, h, he]

/-! ### Runs -/

theorem run_succ {s t : State} {k : Nat} (h : step s = .next t) : run (k + 1) s = run k t := by
  simp [run, h]

/-- A run of `j + k` steps is one of `j` and then one of `k`. -/
theorem run_add {s t : State} {j k : Nat} (h : run j s = .next t) :
    run (j + k) s = run k t := by
  induction j generalizing s with
  | zero =>
    have hst : s = t := by simpa [run] using h
    simp [hst]
  | succ j ih =>
    rw [Nat.add_right_comm]
    simp only [run] at h ⊢
    split at h
    · exact ih h
    · cases h
    · cases h

/-- The model's run is the host's. -/
theorem run_eq_core_run (k : Nat) (s : State) : run k s = Host.Core.run Sys2Proof.core k s := by
  induction k generalizing s with
  | zero => rfl
  | succ k ih =>
    have hr : ∀ o : Host.Outcome State Fault Refusal, step s = o →
        run (k + 1) s = Host.Core.run Sys2Proof.core (k + 1) s := by
      intro o ho
      have hc : Sys2Proof.core.step s = o := ho
      cases o <;> simp [run, Host.Core.run, ho, hc, ih] <;> rfl
    exact hr _ rfl

end Sys2Proof.Machine
end

