-- ==== Sys2Proof/Laws/PerInstr.lean ====
section
/-! SUPPORT. A fact of every instruction, one lemma per constructor: the encoder's word is a legal
word of its format (it fits the width and is no reserved code). -/

namespace Sys2Proof.Laws.CodeFits

/-- The word of `i` is a legal word of its format (30_encoding.md R80, R89). -/
def Statement (i : Instr) : Prop := (encode i).wellFormed = true

theorem nocmd : Statement .nocmd := rfl
theorem read : Statement .read := rfl
theorem idle : Statement .idle := rfl
theorem hsLow : Statement .hsLow := rfl
theorem hsHigh : Statement .hsHigh := rfl
theorem ack1 : Statement .ack1 := rfl
theorem ack2 : Statement .ack2 := rfl
theorem ack3 : Statement .ack3 := rfl
theorem bitLow : Statement .bitLow := rfl
theorem bitHigh : Statement .bitHigh := rfl
theorem check : Statement .check := rfl
theorem driveLow : Statement .driveLow := rfl
theorem driveHigh : Statement .driveHigh := rfl
theorem sense : Statement .sense := rfl
theorem ok : Statement .ok := rfl
theorem driverFault : Statement .driverFault := rfl
theorem timeout : Statement .timeout := rfl
theorem checksumMismatch : Statement .checksumMismatch := rfl
theorem frame (h f t g c : Byte) : Statement (.frame h f t g c) := by
  have hf : decide ((frameWord h f t g c).toNat < 2 ^ 40) = true :=
    decide_eq_true (frameWord h f t g c).isLt
  exact congrArg (· && true) hf
theorem bit0 : Statement .bit0 := rfl
theorem bit1 : Statement .bit1 := rfl

end Sys2Proof.Laws.CodeFits
end

