-- ==== Sys2Proof/Tests/Slice0.lean ====
section
/-! SUPPORT. The model's own tests: decoding words written out from 30_encoding.md, well-formedness
refusals, single edges from the vectors of 95_test_vectors.md, and a witness for the hypotheses of
every obligation. -/

namespace Sys2Proof.Tests

open Sys2Proof.Machine

/-! ### Decoding: the words of 30_encoding.md R81, R82, R85 to R88 -/

theorem test_decode_nocmd : decode .cmd 0b0 = .ok .nocmd := rfl
theorem test_decode_read : decode .cmd 0b1 = .ok .read := rfl
theorem test_decode_idle : decode .seq 0b0000 = .ok .idle := rfl
theorem test_decode_hsLow : decode .seq 0b0001 = .ok .hsLow := rfl
theorem test_decode_hsHigh : decode .seq 0b0010 = .ok .hsHigh := rfl
theorem test_decode_ack1 : decode .seq 0b0011 = .ok .ack1 := rfl
theorem test_decode_ack2 : decode .seq 0b0100 = .ok .ack2 := rfl
theorem test_decode_ack3 : decode .seq 0b0101 = .ok .ack3 := rfl
theorem test_decode_bitLow : decode .seq 0b0110 = .ok .bitLow := rfl
theorem test_decode_bitHigh : decode .seq 0b0111 = .ok .bitHigh := rfl
theorem test_decode_check : decode .seq 0b1000 = .ok .check := rfl
theorem test_decode_driveLow : decode .padc 0b10 = .ok .driveLow := rfl
theorem test_decode_driveHigh : decode .padc 0b11 = .ok .driveHigh := rfl
theorem test_decode_sense : decode .padc 0b01 = .ok .sense := rfl
theorem test_decode_ok : decode .res 0b00 = .ok .ok := rfl
theorem test_decode_driverFault : decode .res 0b01 = .ok .driverFault := rfl
theorem test_decode_timeout : decode .res 0b10 = .ok .timeout := rfl
theorem test_decode_checksumMismatch : decode .res 0b11 = .ok .checksumMismatch := rfl
theorem test_decode_bit0 : decode .sym 0b0 = .ok .bit0 := rfl
theorem test_decode_bit1 : decode .sym 0b1 = .ok .bit1 := rfl

/-- The frame of S1, `00110010 00000000 00011011 00000000 01001101` in order of arrival
(95_test_vectors.md section 2.4). -/
theorem test_decode_frame_s1 :
    decode .wire40 0b0011001000000000000110110000000001001101 =
      .ok (.frame 0x32 0x00 0x1B 0x00 0x4D) := rfl

/-- The frame of P4, `00101000 00000101 00010111 00000011 01000111`, every byte different. -/
theorem test_decode_frame_p4 :
    decode .wire40 0b0010100000000101000101110000001101000111 =
      .ok (.frame 0x28 0x05 0x17 0x03 0x47) := rfl

/-- 30_encoding.md R89: the least and the greatest reserved `SEQ` code. -/
theorem test_decode_refuses_reserved_seq :
    decode .seq 0b1001 = .error .reservedSeqCode ∧ decode .seq 0b1111 = .error .reservedSeqCode :=
  ⟨rfl, rfl⟩

/-- 30_encoding.md R89: pad code `0b00`. -/
theorem test_decode_refuses_pad_00 : decode .padc 0b00 = .error .senseWithOutLow := rfl

theorem test_decode_refuses_too_wide :
    decode .cmd 2 = .error .tooWide ∧ decode .seq 16 = .error .tooWide ∧
      decode .wire40 (2 ^ 40) = .error .tooWide := ⟨rfl, rfl, rfl⟩

/-! ### Well-formedness: one ill-formed term for each check -/

theorem test_defaults_well_formed : Params.default.wellFormed = true := by decide

theorem test_refuses_no_clock : { Params.default with ticksPerUs := 0 }.wellFormed = false := by
  decide

theorem test_refuses_short_low_pulse :
    { Params.default with hsLowUs := 17999 }.wellFormed = false := by decide

theorem test_refuses_short_high_drive :
    { Params.default with hsHighUs := 19 }.wellFormed = false := by decide

theorem test_refuses_long_high_drive :
    { Params.default with hsHighUs := 41 }.wellFormed = false := by decide

theorem test_refuses_word_too_wide :
    (CodeWord.mk .res 4).wellFormed = false ∧ (CodeWord.mk .cmd 2).wellFormed = false := by decide

theorem test_refuses_reserved_seq_word : (CodeWord.mk .seq 9).wellFormed = false := by decide

theorem test_refuses_reserved_pad_word : (CodeWord.mk .padc 0).wellFormed = false := by decide

/-! ### Small states -/

/-- The state before an edge of a read in progress, at the defaults, with one input listed. -/
def during (st : SeqOp) (bitn cnt : Nat) (sr : FrameWord) (p : Pins) : State :=
  { State.reset with
    st := st, bitn := bitn, cnt := cnt, sr := sr, pending := [p]
    pad := if st = .hsLow then .drive .low
      else if st = .idle ∨ st = .hsHigh then .drive .high else .sense }

/-- The idle state that shows an outcome. -/
def finished (code : ResCode) (hum temp : Byte) : State :=
  { State.reset with done := true, code := code, hum := hum, temp := temp }

/-- Input ports with a level on the Line and no fault. -/
def level (v : Level) : Pins := { quietPins with lineIn := v }

/-- Input ports with a driver fault. -/
def faultPins (v : Level) : Pins := { quietPins with lineIn := v, drvFault := true }

/-- Input ports with the command. -/
def startPins : Pins := { quietPins with start := true }

/-- The registers of a next state, the model's own fields put back to those of reset. -/
def registers : Host.Outcome State Fault Refusal → Option State
  | .next t => some { t with pending := [], edge := 0, params := Params.default }
  | .fault _ => none
  | .refused _ => none

/-- The registers of a read in progress after an edge. -/
def then_ (st : SeqOp) (bitn cnt : Nat) (sr : FrameWord) : Option State :=
  some { during st bitn cnt sr quietPins with pending := [] }

/-- A result with a state. -/
def idleWith (code : ResCode) (hum temp : Byte) (p : Pins) : State :=
  { finished code hum temp with pending := [p] }

/-! ### One edge each, from the vectors of 95_test_vectors.md -/

/-- V40-1. -/
theorem test_V40_1_nocmd : registers (exec .nocmd State.reset) = some State.reset := by decide

/-- V40-3: the old result is erased. -/
theorem test_V40_3_read :
    registers (exec .read (idleWith .ok 50 27 quietPins)) = then_ .hsLow 0 0 0 := by decide

/-- V40-6: a command while busy. -/
theorem test_V40_6_read_while_busy :
    registers (step (during .hsLow 0 4 0 startPins)) = then_ .hsLow 0 5 0 := by decide

/-- V40-4. -/
theorem test_V40_4_idle_fault :
    registers (step { State.reset with pending := [{ startPins with drvFault := true }] }) =
      some (finished .driverFault 0 0) := by decide

/-- V40-7. -/
theorem test_V40_7_idle_no_command :
    registers (step (idleWith .timeout 0 0 (faultPins .low))) = some (finished .timeout 0 0) := by
  decide

/-- V41-3. -/
theorem test_V41_3_hsLow : registers (step (during .hsLow 0 17999 0 quietPins)) =
    then_ .hsHigh 0 0 0 := by decide

/-- V41-5: a sleeping edge ignores the fault. -/
theorem test_V41_5_hsLow_sleeps : registers (step (during .hsLow 0 5 0 (faultPins .high))) =
    then_ .hsLow 0 6 0 := by decide

/-- V41-9: no sample at the release edge. -/
theorem test_V41_9_hsHigh : registers (step (during .hsHigh 0 39 0 (level .low))) =
    then_ .ack1 0 0 0 := by decide

/-- V41-10. -/
theorem test_V41_10_hsHigh_fault : registers (step (during .hsHigh 0 39 0 (faultPins .low))) =
    some (finished .driverFault 0 0) := by decide

/-- V42-4. -/
theorem test_V42_4_ack1_timeout : registers (step (during .ack1 0 250000 0 (level .high))) =
    some (finished .timeout 0 0) := by decide

/-- V42-5: the level test comes before the ceiling. -/
theorem test_V42_5_ack1 : registers (step (during .ack1 0 250000 0 (level .low))) =
    then_ .ack2 0 0 0 := by decide

/-- V42-6, its second edge. -/
theorem test_V42_6_ack2 : registers (step (during .ack2 0 79 0 (level .high))) =
    then_ .ack3 0 0 0 := by decide

/-- V60-12: the fault comes before the ceiling. -/
theorem test_V60_12_ack2_fault : registers (step (during .ack2 0 250000 0 (faultPins .low))) =
    some (finished .driverFault 0 0) := by decide

/-- V42-8. -/
theorem test_V42_8_ack3 : registers (step (during .ack3 0 79 0 (level .low))) =
    then_ .bitLow 0 0 0 := by decide

/-- V42-9. -/
theorem test_V42_9_ack3_timeout : registers (step (during .ack3 0 250000 0 (level .high))) =
    some (finished .timeout 0 0) := by decide

/-- V43-1, its first edge. -/
theorem test_V43_1_bitLow_polls : registers (step (during .bitLow 0 48 0 (level .low))) =
    then_ .bitLow 0 49 0 := by decide

/-- V43-1, its second edge: `BITN` and `SR` unchanged (here with eight bits already received, V60-7). -/
theorem test_V43_1_bitLow : registers (step (during .bitLow 8 49 0x32 (level .high))) =
    then_ .bitHigh 8 0 0x32 := by decide

/-- V43-3: exactly the threshold is 0. -/
theorem test_V43_3_bitHigh_at_threshold : registers (step (during .bitHigh 0 29 0 (level .low))) =
    then_ .bitLow 1 0 0 := by decide

/-- V43-4: one tick more is 1. -/
theorem test_V43_4_bitHigh_above : registers (step (during .bitHigh 0 30 0 (level .low))) =
    then_ .bitLow 1 0 1 := by decide

/-- V43-8, the shift alone. -/
theorem test_V43_8_bit0 :
    registers (exec .bit0 (during .bitHigh 38 27 0x0C8006C013 (level .low))) =
      then_ .bitLow 39 0 0x19000D8026 := by decide

/-- V43-7, the shift alone. -/
theorem test_V43_7_bit1 :
    registers (exec .bit1 (during .bitHigh 39 69 0x19000D8026 (level .low))) =
      then_ .check 40 0 0x32001B004D := by decide

/-- The end of the data phase of P1, from what P1 shows before its fortieth bit. -/
theorem test_P1_frame :
    registers (exec (.frame 0x32 0x00 0x1B 0x00 0x4D)
      (during .bitHigh 39 69 0x19000D8026 (level .low))) =
      then_ .check 40 0 0x32001B004D := by decide

/-- V44-4: the largest sum wraps. -/
theorem test_V44_4_check : registers (step (during .check 40 0 0xFFFFFFFFFC quietPins)) =
    some (finished .ok 255 255) := by decide

/-- V44-7: the fraction bytes count. -/
theorem test_V44_7_check : registers (step (during .check 40 0 0x280517033F quietPins)) =
    some (finished .checksumMismatch 0 0) := by decide

/-- V44-6, the exit alone: bytes 0 and 2, not 1 and 3. -/
theorem test_V44_6_ok : registers (exec .ok (during .check 40 0 0x2805170347 quietPins)) =
    some (finished .ok 40 23) := by decide

/-- V60-7, the exit alone. -/
theorem test_V60_7_driverFault :
    registers (exec .driverFault (during .bitLow 8 18 0x32 quietPins)) =
      some (finished .driverFault 0 0) := by decide

/-- V43-10, the exit alone. -/
theorem test_V43_10_timeout :
    registers (exec .timeout (during .bitHigh 3 250000 1 quietPins)) =
      some (finished .timeout 0 0) := by decide

/-- P2, the exit alone. -/
theorem test_P2_checksumMismatch :
    registers (exec .checksumMismatch (during .check 40 0 0x32001B004E quietPins)) =
      some (finished .checksumMismatch 0 0) := by decide

/-- 30_encoding.md R87, the pad after each of the three codes. -/
theorem test_R87_driveLow :
    (registers (exec .driveLow State.reset)).map (fun t => (t.oe, t.out, t.padWord)) =
      some (.drive, .low, 0b10) := by decide

theorem test_R87_driveHigh :
    (registers (exec .driveHigh (during .hsLow 0 0 0 quietPins))).map
      (fun t => (t.oe, t.out, t.padWord)) = some (.drive, .high, 0b11) := by decide

theorem test_R87_sense :
    (registers (exec .sense (during .hsHigh 0 39 0 quietPins))).map
      (fun t => (t.oe, t.out, t.padWord)) = some (.sense, .high, 0b01) := by decide

/-- 93_implementation_defined.md U11: a release from a pad that drives low shows no `0b00`. -/
theorem test_U11_sense_from_low :
    (registers (exec .sense (during .hsLow 0 0 0 quietPins))).map
      (fun t => (t.oe, t.out, t.padWord)) = some (.sense, .high, 0b01) := by decide

/-- V60-11: reset wins. -/
theorem test_V60_11_reset :
    registers (step (during .bitHigh 12 9 0x320
      { rst := true, start := true, lineIn := .low, drvFault := true })) = some State.reset := by
  decide

/-- The end state of P1 as its ports show it. -/
theorem test_P1_ports :
    (finished .ok 0x32 0x1B).outputs =
      { lineOe := 1, lineOut := 1, busy := false, done := true, code := 0b00,
        humidity := 0x32, temperature := 0x1B } ∧
    (finished .timeout 0 0).statusWord = 0b1010 ∧ (finished .ok 0x32 0x1B).dataWord = 0x1B32 := by
  decide

/-- 95_test_vectors.md section 2.4: the high durations of byte `0x32`. -/
theorem test_byte_durations :
    ((byteRuns 0x32).filter (fun r => r.1 = .high)).map (·.2) = [28, 28, 70, 70, 28, 28, 70, 28] := by
  decide

/-- The forty symbols of P1's frame begin with `00110010`. -/
theorem test_frame_symbols :
    (frameSymbols 0x32 0x00 0x1B 0x00 0x4D).take 8 =
      [.bit0, .bit0, .bit1, .bit1, .bit0, .bit0, .bit1, .bit0] := by decide

/-- A placed code runs as the first operation after reset (log 14). -/
theorem test_placed_code_runs :
    registers (step (State.reset.withFetchWord 8 0b00000001)) =
      registers (exec .hsLow (State.reset.withFetchWord 8 0b00000001)) ∧
    fetch (State.reset.withFetchWord 8 0b00000001) = .hsLow := by decide

/-- A placed command is accepted after reset (log 14). -/
theorem test_placed_read_runs :
    registers (step (State.reset.withFetchWord 1 1)) = then_ .hsLow 0 0 0 := by decide

/-- A placed frame is in `SR` after the next step (log 14). -/
theorem test_placed_frame_runs :
    (registers (step (State.reset.withFetchWord 40 0x32001B004D))).map
      (fun t => (t.st, t.bitn, t.sr)) = some (.check, 40, 0x32001B004D) := by decide

/-! ### Witnesses: for each obligation with hypotheses, a state and operands that meet them, at the
boundary of each clause -/

/-- ResetEdgeGivesTheResetValues: a reset edge in the middle of a read (V70-3). -/
theorem witness_reset_edge :
    (during .bitLow 8 18 0x32 { quietPins with rst := true }).pins.rst = true := by decide

/-- NoCommandWritesNothing, its clauses for one edge and for several. -/
theorem witness_no_command :
    (idleWith .timeout 0 0 (faultPins .low)).started = false ∧
    (idleWith .timeout 0 0 (faultPins .low)).st = .idle ∧
    (idleWith .timeout 0 0 (faultPins .low)).pending = [faultPins .low] ++ [] ∧
    (∀ p ∈ [faultPins .low], p.rst = false ∧ p.start = false) := by decide

/-- ReadIsAcceptedInIdle, its three clauses (V40-2, V40-4). -/
theorem witness_read_accepted :
    (idleWith .ok 50 27 startPins).st = .idle ∧ (idleWith .ok 50 27 startPins).faulted = false ∧
    (idleWith .ok 50 27 startPins).started = true ∧
    (idleWith .ok 50 27 (faultPins .high)).st = .idle ∧
    (idleWith .ok 50 27 (faultPins .high)).faulted = true := by decide

/-- StartIsIgnoredWhileBusy: `start = 1` at the exit edge (V40-8), and again at the edge after it. -/
theorem witness_start_while_busy :
    (during .check 40 0 0x32001B004D startPins).st ≠ .idle ∧
    ∃ t, step { during .check 40 0 0x32001B004D startPins with pending := [startPins, startPins] } =
        .next t ∧
      t.st = .idle ∧ t.pins.rst = false ∧ t.started = true ∧ t.faulted = false :=
  ⟨by decide, _, rfl, rfl, rfl, rfl, rfl⟩

/-- CommandRowsDoNothingWhileBusy: the state of V40-6. -/
theorem witness_command_rows : (during .hsLow 0 4 0 startPins).st ≠ .idle := by decide

/-- HsLowCountsThenDrivesHigh: one tick before the last (V41-2), and the last (V41-3, V41-4). -/
theorem witness_hs_low :
    (during .hsLow 0 17998 0 quietPins).cnt + 1 ≠ (during .hsLow 0 17998 0 quietPins).hsLowTicks ∧
    (during .hsLow 0 17999 0 quietPins).cnt + 1 = (during .hsLow 0 17999 0 quietPins).hsLowTicks ∧
    (during .hsLow 0 17999 0 quietPins).faulted = false ∧
    (during .hsLow 0 17999 0 (faultPins .low)).cnt + 1 =
      (during .hsLow 0 17999 0 (faultPins .low)).hsLowTicks ∧
    (during .hsLow 0 17999 0 (faultPins .low)).faulted = true := by decide

/-- HsHighCountsThenReleases: one tick before the last (V41-8), and the last (V41-9, V41-10). -/
theorem witness_hs_high :
    (during .hsHigh 0 38 0 quietPins).cnt + 1 ≠ (during .hsHigh 0 38 0 quietPins).hsHighTicks ∧
    (during .hsHigh 0 39 0 quietPins).cnt + 1 = (during .hsHigh 0 39 0 quietPins).hsHighTicks ∧
    (during .hsHigh 0 39 0 quietPins).faulted = false ∧
    (during .hsHigh 0 39 0 quietPins).out = .high ∧
    (during .hsHigh 0 39 0 (faultPins .low)).cnt + 1 =
      (during .hsHigh 0 39 0 (faultPins .low)).hsHighTicks ∧
    (during .hsHigh 0 39 0 (faultPins .low)).faulted = true := by decide

/-- The reset state with a command and the edges of a handshake as its input. -/
def handshakeStart : State :=
  { State.reset with pending := startPins :: List.replicate 18040 quietPins ++ [] }

/-- HandshakePadWaveform: the durations at their least, and the numbers of edges where its clauses
meet (17999 and 18000, 18039 and 18040). -/
theorem witness_handshake :
    handshakeStart.params.wellFormed = true ∧ handshakeStart.st = .idle ∧
    handshakeStart.pending = startPins :: List.replicate 18040 quietPins ++ [] ∧
    startPins.rst = false ∧ startPins.start = true ∧ startPins.drvFault = false ∧
    (List.replicate 18040 quietPins).length =
      handshakeStart.hsLowTicks + handshakeStart.hsHighTicks ∧
    (∀ q ∈ List.replicate 18040 quietPins, q.rst = false ∧ q.drvFault = false) ∧
    17999 < handshakeStart.hsLowTicks ∧ handshakeStart.hsLowTicks ≤ 18000 ∧
    18039 < handshakeStart.hsLowTicks + handshakeStart.hsHighTicks ∧
    18040 = handshakeStart.hsLowTicks + handshakeStart.hsHighTicks :=
  ⟨by decide, rfl, rfl, rfl, rfl, rfl, List.length_replicate,
    fun _ hq => List.eq_of_mem_replicate hq ▸ ⟨rfl, rfl⟩, by decide, by decide, by decide,
    by decide⟩

/-- AcknowledgeAndBitLowWaits and BitHighDecidesAndShifts: the four cases of a wait for `HIGH`, the
last two on either side of the ceiling. -/
theorem witness_wait_for_high :
    (during .ack1 0 7 0 (faultPins .low)).faulted = true ∧
    (during .ack1 0 250000 0 (level .low)).faulted = false ∧
    (during .ack1 0 250000 0 (level .low)).lineRead ≠ .high ∧
    (during .ack1 0 250000 0 (level .high)).faulted = false ∧
    (during .ack1 0 250000 0 (level .high)).lineRead = .high ∧
    (during .ack1 0 250000 0 (level .high)).timeoutTicks <
      (during .ack1 0 250000 0 (level .high)).cnt + 1 ∧
    (during .ack1 0 249999 0 (level .high)).faulted = false ∧
    (during .ack1 0 249999 0 (level .high)).lineRead = .high ∧
    (during .ack1 0 249999 0 (level .high)).cnt + 1 ≤
      (during .ack1 0 249999 0 (level .high)).timeoutTicks := by decide

/-- AcknowledgeAndBitLowWaits: the four cases of a wait for `LOW`. -/
theorem witness_wait_for_low :
    (during .ack2 0 250000 0 (faultPins .low)).faulted = true ∧
    (during .ack2 0 250000 0 (level .high)).faulted = false ∧
    (during .ack2 0 250000 0 (level .high)).lineRead ≠ .low ∧
    (during .ack2 0 250000 0 (level .low)).faulted = false ∧
    (during .ack2 0 250000 0 (level .low)).lineRead = .low ∧
    (during .ack2 0 250000 0 (level .low)).timeoutTicks <
      (during .ack2 0 250000 0 (level .low)).cnt + 1 ∧
    (during .ack2 0 249999 0 (level .low)).faulted = false ∧
    (during .ack2 0 249999 0 (level .low)).lineRead = .low ∧
    (during .ack2 0 249999 0 (level .low)).cnt + 1 ≤
      (during .ack2 0 249999 0 (level .low)).timeoutTicks := by decide

/-- `ACK1` just entered, with samples listed. -/
def waiting (ps : List Pins) (q : Pins) : State :=
  { during .ack1 0 0 0 quietPins with pending := ps ++ q :: [] }

/-- WaitCeilingIsExact: no sample at the level and one that differs (V45-1); the last admissible
sample differs (V45-4); the Line never changes (V45-3). -/
theorem witness_wait_ceiling (n : Nat) (hn : n ≤ 250000) (v : Level) :
    waitLevel (waiting (List.replicate n (level .high)) (level v)).st = some .high ∧
    (waiting (List.replicate n (level .high)) (level v)).cnt = 0 ∧
    (waiting (List.replicate n (level .high)) (level v)).pending =
      List.replicate n (level .high) ++ level v :: [] ∧
    (∀ p ∈ List.replicate n (level .high),
      p.rst = false ∧ p.drvFault = false ∧ p.lineIn = .high) ∧
    (level v).rst = false ∧ (level v).drvFault = false ∧
    (List.replicate n (level .high)).length ≤
      (waiting (List.replicate n (level .high)) (level v)).timeoutTicks ∧
    (level .low).lineIn ≠ .high ∧ (level .high).lineIn = .high :=
  ⟨rfl, rfl, rfl, fun _ hp => List.eq_of_mem_replicate hp ▸ ⟨rfl, rfl, rfl⟩, rfl, rfl,
    by rw [List.length_replicate]; exact hn, by decide, rfl⟩

theorem witness_wait_ceiling_bounds : (0 : Nat) ≤ 250000 ∧ (250000 : Nat) ≤ 250000 ∧
    (List.replicate 250000 (level .high)).length =
      (waiting (List.replicate 250000 (level .high)) (level .high)).timeoutTicks :=
  ⟨by decide, by decide, by rw [List.length_replicate]; decide⟩

/-- SymbolsShiftTheFrameRegister: both symbols, on either side of the threshold. -/
theorem witness_symbols :
    ((Instr.bit0 = .bit0 ∧ false = false) ∨ (Instr.bit0 = .bit1 ∧ false = true)) ∧
    ((Instr.bit1 = .bit0 ∧ true = false) ∨ (Instr.bit1 = .bit1 ∧ true = true)) ∧
    (during .bitHigh 0 29 0 (level .low)).faulted = false ∧
    (during .bitHigh 0 29 0 (level .low)).lineRead = .low ∧
    decide ((during .bitHigh 0 29 0 (level .low)).threshTicks <
      (during .bitHigh 0 29 0 (level .low)).cnt + 1) = false ∧
    (during .bitHigh 0 30 0 (level .low)).faulted = false ∧
    (during .bitHigh 0 30 0 (level .low)).lineRead = .low ∧
    decide ((during .bitHigh 0 30 0 (level .low)).threshTicks <
      (during .bitHigh 0 30 0 (level .low)).cnt + 1) = true := by decide

/-- FortySymbolsAreTheFrame: the entry of the data phase. -/
theorem witness_forty_symbols : (during .bitLow 0 0 0 quietPins).bitn = 0 := by decide

/-- DataPhaseDecodesTheDurations: the shortest durations (P8), every wait one tick. -/
def shortest : State :=
  { during .bitLow 0 0 0 quietPins with pending := dataSamples (fun _ => 1) (fun _ => 1) ++ [] }

theorem witness_data_phase :
    shortest.st = .bitLow ∧ shortest.bitn = 0 ∧ shortest.cnt = 0 ∧ shortest.sr = 0 ∧
    (∀ k, k < 40 → 1 ≤ (fun _ => 1 : Nat → Nat) k ∧
      (fun _ => 1 : Nat → Nat) k ≤ shortest.timeoutTicks + 1 ∧
      1 ≤ (fun _ => 1 : Nat → Nat) k ∧ (fun _ => 1 : Nat → Nat) k ≤ shortest.timeoutTicks + 1) ∧
    shortest.pending = dataSamples (fun _ => 1) (fun _ => 1) ++ [] :=
  ⟨rfl, rfl, rfl, rfl, fun _ _ => (by decide : 1 ≤ 1 ∧ 1 ≤ shortest.timeoutTicks + 1 ∧ 1 ≤ 1 ∧
    1 ≤ shortest.timeoutTicks + 1), rfl⟩

/-- CheckComparesTheChecksum: a fault (V44-10), a sum that matches (V44-4), one that does not
(V44-7). -/
theorem witness_check :
    (during .check 40 0 0x32001B004D (faultPins .low)).faulted = true ∧
    (during .check 40 0 0xFFFFFFFFFC quietPins).faulted = false ∧
    valueSum (during .check 40 0 0xFFFFFFFFFC quietPins).sr.toNat =
      valueByte (during .check 40 0 0xFFFFFFFFFC quietPins).sr.toNat 4 ∧
    (during .check 40 0 0x280517033F quietPins).faulted = false ∧
    valueSum (during .check 40 0 0x280517033F quietPins).sr.toNat ≠
      valueByte (during .check 40 0 0x280517033F quietPins).sr.toNat 4 := by decide

/-- ResultRowsAreExits, its last clause. -/
theorem witness_result_rows (s : State) :
    ∃ t, exec .timeout s = .next t ∧
      (Instr.timeout = .ok ∨ Instr.timeout = .driverFault ∨ Instr.timeout = .timeout ∨
        Instr.timeout = .checksumMismatch) := ⟨_, rfl, by decide⟩

/-- PadRowsDriveAndRelease: a release from each level. -/
theorem witness_pad_rows :
    (∃ t, exec .sense (during .hsHigh 0 39 0 quietPins) = .next t) ∧
    ∃ t, exec .sense (during .hsLow 0 0 0 quietPins) = .next t := ⟨⟨_, rfl⟩, _, rfl⟩

/-- PadShowsOneOfThreeCodes: a pad of each code, and the last tick of HS_HIGH. -/
theorem witness_pad_codes :
    (during .hsLow 0 0 0 quietPins).oe = .drive ∧ (during .hsLow 0 0 0 quietPins).padWord = 0b10 ∧
    (during .hsHigh 0 39 0 quietPins).oe = .drive ∧
    (during .hsHigh 0 39 0 quietPins).padWord = 0b11 ∧
    (during .ack1 0 0 0 quietPins).oe = .sense ∧ (during .ack1 0 0 0 quietPins).padWord = 0b01 ∧
    (during .hsHigh 0 39 0 quietPins).cnt + 1 = (during .hsHigh 0 39 0 quietPins).hsHighTicks ∧
    (during .hsHigh 0 39 0 quietPins).faulted = false := by decide

/-- DriverFaultOnlyAtLineOperations: one edge of each row of the table of 20_memory.md R57, and
edges at which the fault is not consulted. -/
theorem witness_driver_fault :
    (idleWith .ok 50 27 { startPins with drvFault := true }).consultsFault ∧
    (during .hsLow 0 17999 0 (faultPins .low)).consultsFault ∧
    (during .hsHigh 0 39 0 (faultPins .low)).consultsFault ∧
    (during .ack1 0 0 0 (faultPins .low)).consultsFault ∧
    (during .ack2 0 250000 0 (faultPins .low)).consultsFault ∧
    (during .ack3 0 0 0 (faultPins .low)).consultsFault ∧
    (during .bitLow 8 18 0x32 (faultPins .low)).consultsFault ∧
    (during .bitHigh 39 69 0x19000D8026 (faultPins .low)).consultsFault ∧
    (during .check 40 0 0x32001B004D (faultPins .low)).consultsFault ∧
    (faultPins .low).rst = false ∧ (faultPins .low).drvFault = true ∧
    ¬ ((during .hsLow 0 17998 0 quietPins).withPins (faultPins .low)).consultsFault ∧
    ¬ ((during .hsHigh 0 38 0 quietPins).withPins (faultPins .low)).consultsFault ∧
    ¬ ((idleWith .ok 50 27 quietPins).withPins (faultPins .low)).consultsFault := by
  repeat' apply And.intro
  all_goals decide

/-- Every hypothesis of OutcomesHaveTheirCauses before an edge: a legal, quiet, unfinished state. -/
abbrev Unfinished (s : State) : Prop :=
  s.params.wellFormed = true ∧ Invariants s ∧ s.pins.rst = false ∧ s.done = false

/-- OutcomesHaveTheirCauses: an edge for each of the four outcomes. -/
theorem witness_outcomes :
    Unfinished (during .ack1 0 7 0 (faultPins .low)) ∧
    (registers (step (during .ack1 0 7 0 (faultPins .low)))).map (fun t => (t.done, t.code)) =
      some (true, .driverFault) ∧
    Unfinished (during .bitHigh 3 250000 1 (level .high)) ∧
    (registers (step (during .bitHigh 3 250000 1 (level .high)))).map
      (fun t => (t.done, t.code)) = some (true, .timeout) ∧
    Unfinished (during .check 40 0 0x32001B004E quietPins) ∧
    (registers (step (during .check 40 0 0x32001B004E quietPins))).map
      (fun t => (t.done, t.code)) = some (true, .checksumMismatch) ∧
    Unfinished (during .check 40 0 0x32001B004D quietPins) ∧
    (registers (step (during .check 40 0 0x32001B004D quietPins))).map
      (fun t => (t.done, t.code)) = some (true, .ok) := by
  repeat' apply And.intro
  all_goals decide

/-- StepIsTotalAndReadsOnlyItsInputs: each of its five hypotheses. -/
theorem witness_step_total :
    (during .bitLow 8 18 0x32 { quietPins with rst := true }).pins.rst = true ∧
    (during .bitLow 8 18 0x32 quietPins).pins.rst = false ∧
    (during .bitLow 8 18 0x32 quietPins).st ≠ .idle ∧
    ¬ (during .hsLow 0 5 0 quietPins).inWait ∧
    ¬ ((during .hsLow 0 5 0 quietPins).withPins quietPins).consultsFault := by decide

/-- StepRunsTheDecodedOperation. -/
theorem witness_step_runs :
    (during .check 40 0 0x32001B004D quietPins).pins.rst = false ∧
    decode .seq (during .check 40 0 0x32001B004D quietPins).st.code.toNat = .ok .check :=
  ⟨by decide, rfl⟩

/-- PlacedWordRunsNext: a command, a code of the sequencer, a frame. -/
theorem witness_placed :
    State.reset.params.wellFormed = true ∧ decodeTableWord 1 0 = some .nocmd ∧
    decodeTableWord 8 8 = some .check ∧
    decodeTableWord 40 0x32001B004D = some (.frame 0x32 0x00 0x1B 0x00 0x4D) := by decide

/-- OperationsFollowTheGraph: the two successors of `BIT_HIGH`, at `BITN` 38 and 39. -/
theorem witness_graph :
    Unfinished (during .bitHigh 38 27 0x0C8006C013 (level .low)) ∧
    (registers (step (during .bitHigh 38 27 0x0C8006C013 (level .low)))).map State.st =
      some .bitLow ∧
    Unfinished (during .bitHigh 39 69 0x19000D8026 (level .low)) ∧
    (registers (step (during .bitHigh 39 69 0x19000D8026 (level .low)))).map State.st =
      some .check := by
  repeat' apply And.intro
  all_goals decide

/-- StepKeepsParametersAndTakesOneInput and InvariantKeptByEveryStep: a legal state, and the
fortieth bit of P1 as the step. -/
theorem witness_invariant_step :
    (during .bitHigh 39 69 0x19000D8026 (level .low)).params.wellFormed = true ∧
    Invariants (during .bitHigh 39 69 0x19000D8026 (level .low)) ∧
    ∃ t, step (during .bitHigh 39 69 0x19000D8026 (level .low)) = .next t :=
  ⟨by decide, by decide, _, rfl⟩

/-- OldResultInfluencesNoRead: an accepted read with an old result and without one. -/
theorem witness_old_result :
    (∃ u u', step { State.reset with pending := [startPins] } = .next u ∧
      step { ({ State.reset with pending := [startPins] } : State) with
        done := true, code := .ok, hum := 50, temp := 27 } = .next u') ∧
    (idleWith .ok 50 27 startPins).pins.rst = false ∧
    (idleWith .ok 50 27 startPins).st = .idle ∧ (idleWith .ok 50 27 startPins).started = true :=
  ⟨⟨_, _, rfl, rfl⟩, by decide, by decide, by decide⟩

/-- ResultStandsUntilTheNextRead: its three clauses. -/
theorem witness_result_stands :
    Invariants (idleWith .ok 50 27 (faultPins .low)) ∧
    (idleWith .ok 50 27 (faultPins .low)).done = true ∧
    (idleWith .ok 50 27 (faultPins .low)).pins.rst = false ∧
    (idleWith .ok 50 27 (faultPins .low)).started = false ∧
    Invariants (idleWith .ok 50 27 startPins) ∧ (idleWith .ok 50 27 startPins).started = true ∧
    (idleWith .ok 50 27 startPins).faulted = false ∧
    Invariants (idleWith .ok 50 27 { quietPins with rst := true }) ∧
    (idleWith .ok 50 27 { quietPins with rst := true }).pins.rst = true ∧
    (registers (step (idleWith .ok 50 27 (faultPins .low)))).isSome = true ∧
    (registers (step (idleWith .ok 50 27 startPins))).isSome = true ∧
    (registers (step (idleWith .ok 50 27 { quietPins with rst := true }))).isSome = true := by
  repeat' apply And.intro
  all_goals decide

/-- EveryReadEndsWithinTheBound: just after acceptance, and at the last edge of a read. -/
theorem witness_read_ends :
    (during .hsLow 0 0 0 quietPins).params.wellFormed = true ∧
    Invariants (during .hsLow 0 0 0 quietPins) ∧ (during .hsLow 0 0 0 quietPins).st ≠ .idle ∧
    Invariants (during .check 40 0 0x32001B004D quietPins) ∧
    (during .check 40 0 0x32001B004D quietPins).st ≠ .idle := by
  repeat' apply And.intro
  all_goals decide

/-- The reset state with a command and a Line that stays high for `n` edges, `start` asked at each. -/
def absent (n : Nat) : State :=
  { State.reset with pending := startPins :: List.replicate n startPins ++ [] }

/-- AbsentSensorGivesTimeout (P3), with `start` asked at every edge, the exit edge too; its clause on
the edges before at the first and at the last of them. -/
theorem witness_absent_sensor :
    (absent 268041).params.wellFormed = true ∧ (absent 268041).st = .idle ∧
    (absent 268041).pending =
      { quietPins with start := true } :: List.replicate 268041 startPins ++ [] ∧
    (List.replicate 268041 startPins).length = (absent 268041).hsLowTicks +
      (absent 268041).hsHighTicks + ((absent 268041).timeoutTicks + 1) ∧
    (∀ p ∈ List.replicate 268041 startPins,
      p.rst = false ∧ p.drvFault = false ∧ p.lineIn = .high) ∧
    1 ≤ (absent 268041).hsLowTicks + (absent 268041).hsHighTicks +
      ((absent 268041).timeoutTicks + 1) ∧
    268041 ≤ (absent 268041).hsLowTicks + (absent 268041).hsHighTicks +
      ((absent 268041).timeoutTicks + 1) :=
  ⟨by decide, rfl, rfl, by rw [List.length_replicate]; decide,
    fun _ hp => List.eq_of_mem_replicate hp ▸ ⟨rfl, rfl, rfl⟩, by decide, by decide⟩

/-- The reset state with the whole waveform of a read: P8's shortest, all zeros, or its longest
highs where `d` says so. -/
def wholeRead (d : Nat → Nat) : State :=
  { State.reset with
    pending := { quietPins with start := true } ::
      (List.replicate (18000 + 40) quietPins ++
        (List.replicate 0 (sample .high) ++ List.replicate 1 (sample .low) ++
          List.replicate 1 (sample .high) ++ [sample .low]) ++
        dataSamples (fun _ => 1) d ++ quietPins :: []) }

/-- WholeReadDeliversTheMeasurement: P8's shortest read, whose checksum holds, and the same with a
fortieth symbol of the longest high, whose checksum does not. -/
theorem witness_whole_read :
    (wholeRead (fun _ => 1)).params.wellFormed = true ∧ (wholeRead (fun _ => 1)).st = .idle ∧
    0 ≤ (wholeRead (fun _ => 1)).timeoutTicks ∧ 1 ≤ (wholeRead (fun _ => 1)).timeoutTicks + 1 ∧
    quietPins.rst = false ∧ quietPins.drvFault = false ∧
    (wholeRead (fun _ => 1)).pending = { quietPins with start := true } ::
      (List.replicate ((wholeRead (fun _ => 1)).hsLowTicks + (wholeRead (fun _ => 1)).hsHighTicks)
          quietPins ++
        (List.replicate 0 (sample .high) ++ List.replicate 1 (sample .low) ++
          List.replicate 1 (sample .high) ++ [sample .low]) ++
        dataSamples (fun _ => 1) (fun _ => 1) ++ quietPins :: []) := by
  refine ⟨by decide, rfl, by decide, by decide, rfl, rfl, ?_⟩
  have hn : (wholeRead (fun _ => 1)).hsLowTicks + (wholeRead (fun _ => 1)).hsHighTicks =
      18000 + 40 := by decide
  rw [hn]
  rfl

/-- A fortieth high of the greatest admissible duration. -/
def lastHigh : Nat → Nat := fun k => if k = 39 then 250001 else 1

theorem witness_whole_read_mismatch :
    (∀ k, k < 40 → 1 ≤ lastHigh k ∧ lastHigh k ≤ (wholeRead lastHigh).timeoutTicks + 1) ∧
    (wholeRead lastHigh).pending = { quietPins with start := true } ::
      (List.replicate ((wholeRead lastHigh).hsLowTicks + (wholeRead lastHigh).hsHighTicks)
          quietPins ++
        (List.replicate 0 (sample .high) ++ List.replicate 1 (sample .low) ++
          List.replicate 1 (sample .high) ++ [sample .low]) ++
        dataSamples (fun _ => 1) lastHigh ++ quietPins :: []) ∧
    valueSum (dataValue (wholeRead lastHigh).threshTicks lastHigh) ≠
      valueByte (dataValue (wholeRead lastHigh).threshTicks lastHigh) 4 ∧
    valueSum (dataValue (wholeRead (fun _ => 1)).threshTicks (fun _ => 1)) =
      valueByte (dataValue (wholeRead (fun _ => 1)).threshTicks (fun _ => 1)) 4 := by
  have hT : (wholeRead lastHigh).timeoutTicks + 1 = 250001 := by decide
  have hB : (wholeRead lastHigh).threshTicks = 30 := by decide
  have hB' : (wholeRead (fun _ => 1)).threshTicks = 30 := by decide
  have hn : (wholeRead lastHigh).hsLowTicks + (wholeRead lastHigh).hsHighTicks = 18000 + 40 := by
    decide
  rw [hT, hB, hB', hn]
  refine ⟨fun k _ => by unfold lastHigh; split <;> omega, rfl, ?_, ?_⟩
  · simp [dataValue, Finset.sum_range_succ, lastHigh, valueSum, valueByte]
  · simp [dataValue, valueSum, valueByte]

/-- DecodeOfEncodeIsTheInstruction and DecodedWordsAreTheirEncodings: the frame of P4. -/
theorem witness_encoding :
    (Instr.frame 0x28 0x05 0x17 0x03 0x47).wellFormed = true ∧
    (encode (.frame 0x28 0x05 0x17 0x03 0x47)).bits = 0x2805170347 ∧
    decode .wire40 0x2805170347 = .ok (.frame 0x28 0x05 0x17 0x03 0x47) := by decide

/-- ReservedWordsAreRefusedByName: the ends of its ranges. -/
theorem witness_reserved :
    (9 ≤ 9 ∧ 9 < 16) ∧ (9 ≤ 15 ∧ 15 < 16) ∧ 2 ^ Format.seq.width ≤ 16 ∧
    2 ^ Format.wire40.width ≤ 2 ^ 40 := by decide

end Sys2Proof.Tests
end

