-- ==== Sys2Proof/Proofs/StepInputs.lean ====
section
/-! SUPPORT. Which input ports an edge reads (10_state.md R30): no operation changes the input
ports, and an edge whose ports agree with the present ones where the spec lets it look answers the
same next state. -/

namespace Sys2Proof.Machine

/-! ### Conditions and time under other input ports -/

@[simp] theorem State.faulted_withPins (s : State) (q : Pins) :
    (s.withPins q).faulted = q.drvFault := rfl
@[simp] theorem State.started_withPins (s : State) (q : Pins) :
    (s.withPins q).started = q.start := rfl
@[simp] theorem State.lineRead_withPins (s : State) (q : Pins) :
    (s.withPins q).lineRead = q.lineIn := rfl

/-- After the edge its input ports are past. -/
@[simp] theorem tick_withPins (s : State) (q : Pins) : tick (s.withPins q) = tick s := rfl

theorem tick_eq_past_one (s : State) : tick s = s.past 1 := by
  simp [tick, State.past]

/-! ### Operations that read no input, and those that read some -/

/-- `k` at `s` gives the same registers when the input ports are `q`. -/
def SameUnder (q : Pins) (s : State) (k : State → State) : Prop :=
  k (s.withPins q) = (k s).withPins q

variable {s : State} {q : Pins}

theorem raise_sameUnder (e : ReadError) : SameUnder q s (raise e) := rfl

theorem countTick_sameUnder : SameUnder q s countTick := rfl

theorem enter_sameUnder (o : SeqOp) : SameUnder q s (enter o) := rfl

/-- A branch taken on the driver fault, where `q` has the present one: the one way in which every
line operation reads `drv_fault` (20_memory.md R57). -/
theorem faultBranch_sameUnder {k : State → State} (hf : q.drvFault = s.faulted)
    (hk : SameUnder q s k) :
    SameUnder q s (fun u => if u.faulted then raise .driverFault u else k u) := by
  cases hs : s.faulted
  · simpa [SameUnder, hf, hs] using hk
  · simpa [SameUnder, hf, hs] using raise_sameUnder .driverFault

theorem acceptRead_sameUnder (hf : q.drvFault = s.faulted) : SameUnder q s acceptRead :=
  faultBranch_sameUnder hf rfl

/-- The part of a wait after the driver fault reads `line_in` only. -/
theorem waitWhile_sameUnder {v : Level} {k : State → State} (hf : q.drvFault = s.faulted)
    (hl : q.lineIn = s.lineRead) (hk : SameUnder q s k) : SameUnder q s (waitWhile v k) := by
  refine faultBranch_sameUnder hf ?_
  have hd : (s.withPins q).differs v = s.differs v := by simp [State.differs, hl]
  have he : (s.withPins q).expired = s.expired := rfl
  simp only [SameUnder, hd, he]
  split
  · exact hk
  · split <;> rfl

/-- The two sleeps of the handshake read `drv_fault` at their last edge only (41_handshake.md R121,
R122). -/
theorem sleep_sameUnder {n : State → Nat} {k : State → State} (hn : n (s.withPins q) = n s)
    (hf : s.el = n s → q.drvFault = s.faulted) (hk : SameUnder q s k) :
    SameUnder q s (fun u =>
      if u.el = n u then if u.faulted then raise .driverFault u else k u else countTick u) := by
  have he : (s.withPins q).el = s.el := rfl
  by_cases hs : s.el = n s
  · simpa [SameUnder, he, hn, hs] using faultBranch_sameUnder (hf hs) hk
  · simpa [SameUnder, he, hn, hs] using countTick_sameUnder

/-- The comparison of `CHECK` reads no input. -/
theorem compare_sameUnder :
    SameUnder q s (fun u => if u.sumOk then exitOk u else raise .checksumMismatch u) := by
  have hs : (s.withPins q).sumOk = s.sumOk := rfl
  simp only [SameUnder, hs]
  split <;> rfl

/-- The idle operation reads `start`, and `drv_fault` where `start` is 1 (40_command.md R111). -/
theorem idle_sameUnder (hs : q.start = s.started)
    (hf : s.started = true → q.drvFault = s.faulted) :
    SameUnder q s (fun u => if u.started then acceptRead u else u) := by
  cases h : s.started
  · simp [SameUnder, hs, h]
  · simpa [SameUnder, hs, h] using acceptRead_sameUnder (hf h)

/-! ### One edge -/

/-- The ports `q` agree with those of the coming edge wherever 10_state.md R30 lets the step read
them. -/
structure State.ReadsSame (s : State) (q : Pins) : Prop where
  rst : q.rst = s.pins.rst
  start : s.st = .idle → q.start = s.started
  lineIn : s.inWait → q.lineIn = s.lineRead
  drvFault : s.consultsFault → q.drvFault = s.faulted

/-- The operations of the sequencer always answer a next state. -/
theorem exec_instr_answers (o : SeqOp) (s : State) : ∃ t, exec o.instr s = .next t := by
  cases o <;> exact ⟨_, rfl⟩

/-- Instruction `i` answers at `s` the same registers when the input ports are `q`. -/
def AnswersSame (q : Pins) (s : State) (i : Instr) : Prop :=
  ∃ t, exec i s = .next t ∧ exec i (s.withPins q) = .next (t.withPins q)

theorem answersSame_of_sameUnder {i : Instr} {k : State → State} (hk : SameUnder q s k)
    (he : ∀ u, exec i u = .next (k u)) : AnswersSame q s i :=
  ⟨k s, he s, (he _).trans (congrArg _ hk)⟩

/-- A wait reads `drv_fault` and `line_in`, at every edge. -/
theorem answersSame_of_wait {i : Instr} {v : Level} {k : State → State} (h : s.ReadsSame q)
    (hw : s.inWait) (hk : SameUnder q s k) (he : ∀ u, exec i u = .next (waitWhile v k u)) :
    AnswersSame q s i :=
  answersSame_of_sameUnder
    (waitWhile_sameUnder (h.drvFault (.inr (.inr (.inr (.inl hw))))) (h.lineIn hw) hk) he

/-- The operation in `ST` answers the same registers under ports that agree where it reads. -/
theorem answersSame_fetch (h : s.ReadsSame q) : AnswersSame q s (fetch s) := by
  unfold fetch
  cases hst : s.st with
  | idle =>
    exact answersSame_of_sameUnder
      (idle_sameUnder (h.start hst) fun hs => h.drvFault (.inl ⟨hst, hs⟩)) fun _ => rfl
  | hsLow =>
    exact answersSame_of_sameUnder
      (sleep_sameUnder (n := State.hsLowTicks) (k := fun u => enter .hsHigh (lineLevel .high u))
        rfl (fun he => h.drvFault (.inr (.inl ⟨hst, he⟩))) rfl) fun _ => rfl
  | hsHigh =>
    exact answersSame_of_sameUnder
      (sleep_sameUnder (n := State.hsHighTicks) (k := fun u => enter .ack1 (lineDir .sense u))
        rfl (fun he => h.drvFault (.inr (.inr (.inl ⟨hst, he⟩)))) rfl) fun _ => rfl
  | ack1 =>
    exact answersSame_of_wait h (by simp [State.inWait, hst]) (enter_sameUnder .ack2) fun _ => rfl
  | ack2 =>
    exact answersSame_of_wait h (by simp [State.inWait, hst]) (enter_sameUnder .ack3) fun _ => rfl
  | ack3 =>
    exact answersSame_of_wait (k := fun u => enter .bitLow { u with bitn := 0 }) h
      (by simp [State.inWait, hst]) rfl fun _ => rfl
  | bitLow =>
    exact answersSame_of_wait h (by simp [State.inWait, hst]) (enter_sameUnder .bitHigh)
      fun _ => rfl
  | bitHigh =>
    exact answersSame_of_wait (k := fun u => completeBit u.bit u) h
      (by simp [State.inWait, hst]) rfl fun _ => rfl
  | check =>
    exact answersSame_of_sameUnder
      (faultBranch_sameUnder (h.drvFault (by simp [State.consultsFault, hst])) compare_sameUnder)
      fun _ => rfl

/-- The step reads each input port only where 10_state.md R30 says. -/
theorem step_withPins (h : s.ReadsSame q) : step (s.withPins q) = step s := by
  cases hr : s.pins.rst with
  | true =>
    have hq : (s.withPins q).pins.rst = true := h.rst.trans hr
    rw [step_of_rst hr, step_of_rst hq]
    rfl
  | false =>
    have hq : (s.withPins q).pins.rst = false := h.rst.trans hr
    obtain ⟨t, ht, ht'⟩ := answersSame_fetch h
    rw [step_of_exec hr ht, step_of_exec hq ht', tick_withPins]

end Sys2Proof.Machine

open Sys2Proof Sys2Proof.Machine

/-- Settles O22: reset and totality from the two kinds of edge, the three independences as
special cases of `step_withPins`. -/
theorem stepIsTotalAndReadsOnlyItsInputs : Obligations.StepIsTotalAndReadsOnlyItsInputs := by
  refine ⟨fun s hr => ?_, fun s hr => ?_, fun s p b hst => ?_, fun s p v hw => ?_,
    fun s p b hc => ?_⟩
  · exact ⟨_, step_of_rst hr, by simp [SameRegisters, State.reset]⟩
  · obtain ⟨t, ht⟩ := exec_instr_answers s.st s
    exact ⟨t, ht, tick_eq_past_one t ▸ step_of_exec hr ht⟩
  · exact step_withPins (s := s.withPins p)
      ⟨rfl, fun h => absurd h hst, fun _ => rfl, fun _ => rfl⟩
  · exact step_withPins (s := s.withPins p)
      ⟨rfl, fun _ => rfl, fun h => absurd h hw, fun _ => rfl⟩
  · exact step_withPins (s := s.withPins p)
      ⟨rfl, fun _ => rfl, fun _ => rfl, fun h => absurd h hc⟩

end

