-- ==== Sys2Proof/Proofs/DriverFault.lean ====
section
/-! SUPPORT. The driver fault (20_memory.md R57): where it is consulted and reported, the operation
in `ST` is the exit sequence with `DriverFault` and nothing else; elsewhere the step does not read
it. -/

namespace Sys2Proof.Machine

variable {s : State}

/-- `raise E` with every write spelled out (60_exceptions.md R176). -/
theorem raise_eq_exited (e : ReadError) (s : State) : raise e s = s.exited e.code 0 0 := rfl

/-! ### The rows of the table of 20_memory.md R57 -/

theorem execIdle_of_faulted (hs : s.started = true) (hf : s.faulted = true) :
    execIdle s = .next (raise .driverFault s) := by
  simp [execIdle, hs, acceptRead_of_faulted hf]

theorem execHsLow_of_faulted (hc : s.el = s.hsLowTicks) (hf : s.faulted = true) :
    execHsLow s = .next (raise .driverFault s) := by
  simp [execHsLow, hc, hf]

theorem execHsHigh_of_faulted (hc : s.el = s.hsHighTicks) (hf : s.faulted = true) :
    execHsHigh s = .next (raise .driverFault s) := by
  simp [execHsHigh, hc, hf]

theorem execCheck_of_faulted (hf : s.faulted = true) :
    execCheck s = .next (raise .driverFault s) := by
  simp [execCheck, hf]

/-- Each of the five waits is a `waitWhile`, which tests the driver fault first
(45_timed_wait.md R161). -/
theorem exec_wait_of_faulted (hw : s.inWait) (hf : s.faulted = true) :
    exec s.st.instr s = .next (raise .driverFault s) := by
  rcases hw with hst | hst | hst | hst | hst <;> rw [hst] <;>
    exact congrArg Host.Outcome.next (waitWhile_of_faulted hf)

/-! ### Both directions of the rule -/

/-- At every edge of the table a driver fault is raised, whatever the operation. -/
theorem exec_fetch_of_faulted (hc : s.consultsFault) (hf : s.faulted = true) :
    exec (fetch s) s = .next (raise .driverFault s) := by
  unfold fetch
  rcases hc with ⟨hst, hs⟩ | ⟨hst, he⟩ | ⟨hst, he⟩ | hw | hst
  · rw [hst]; exact execIdle_of_faulted hs hf
  · rw [hst]; exact execHsLow_of_faulted he hf
  · rw [hst]; exact execHsHigh_of_faulted he hf
  · exact exec_wait_of_faulted hw hf
  · rw [hst]; exact execCheck_of_faulted hf

theorem step_of_faulted (hr : s.pins.rst = false) (hc : s.consultsFault)
    (hf : s.faulted = true) : step s = .next ((s.exited .driverFault 0 0).past 1) := by
  rw [step_of_exec hr (exec_fetch_of_faulted hc hf), tick_eq_past_one, raise_eq_exited]
  rfl

/-- A reset edge reads no other input port (70_reset_and_hazards.md R200). -/
theorem step_withPins_of_rst {p q : Pins} (hp : p.rst = true) (hq : q.rst = true) :
    step (s.withPins q) = step (s.withPins p) := by
  rw [step_of_rst (s := s.withPins q) hq, step_of_rst (s := s.withPins p) hp]
  rfl

end Sys2Proof.Machine

open Sys2Proof Sys2Proof.Machine

/-- Settles O20: at the listed edges by `step_of_faulted`; at the others a fault is not read, by
reset or by `step_withPins`. -/
theorem driverFaultOnlyAtLineOperations : Obligations.DriverFaultOnlyAtLineOperations := by
  refine ⟨fun s hr hc hf => step_of_faulted hr hc hf, fun s p b h => ?_⟩
  rcases h with hr | hc
  · exact step_withPins_of_rst hr hr
  · exact step_withPins (s := s.withPins p)
      ⟨rfl, fun _ => rfl, fun _ => rfl, fun h => absurd h hc⟩

end

