-- ==== Sys2Proof/Proofs/Command.lean ====
section
/-! SUPPORT. The Caller's command (40_command.md): an idle edge with no command changes no
register, one with `start = 1` is the acceptance edge, and a busy edge does not read `start`. -/

namespace Sys2Proof.Machine

variable {s : State}

/-! ### The instructions READ and IDLE in `IDLE` -/

theorem exec_read_of_idle (hst : s.st = .idle) : exec .read s = .next (acceptRead s) := by
  simp [exec, execRead, hst]

theorem exec_idle_of_started (hs : s.started = true) :
    exec .idle s = .next (acceptRead s) := by
  simp [exec, execIdle, hs]

theorem exec_idle_of_not_started (hs : s.started = false) : exec .idle s = .next s := by
  simp [exec, execIdle, hs]

theorem fetch_of_idle (hst : s.st = .idle) : fetch s = .idle := by
  simp [fetch, hst, SeqOp.instr]

/-! ### The idle edge, without a command and with one -/

theorem step_of_no_command (hst : s.st = .idle) (hr : s.pins.rst = false)
    (hs : s.started = false) : step s = .next (s.past 1) := by
  rw [← tick_eq_past_one]
  exact step_of_exec hr (by rw [fetch_of_idle hst, exec_idle_of_not_started hs])

theorem step_of_start (hst : s.st = .idle) (hr : s.pins.rst = false) (hs : s.started = true) :
    step s = .next (tick (acceptRead s)) :=
  step_of_exec hr (by rw [fetch_of_idle hst, exec_idle_of_started hs])

/-! ### Idle for as long as no command comes -/

/-- "there is no timeout in `IDLE`" (40_command.md R110): the only thing that the edges without a
command change is time. -/
theorem run_of_no_command (ps rest : List Pins) (hst : s.st = .idle)
    (hp : s.pending = ps ++ rest) (hq : ∀ p ∈ ps, p.rst = false ∧ p.start = false) :
    run ps.length s = .next (s.past ps.length) := by
  induction ps generalizing s with
  | nil => rfl
  | cons p ps ih =>
    obtain ⟨⟨hr, hs⟩, hqs⟩ := List.forall_mem_cons.mp hq
    have hpins : s.pins = p := State.pins_of_cons hp
    have hstep : step s = .next (s.past 1) :=
      step_of_no_command hst (by rw [hpins, hr]) (by rw [State.started, hpins, hs])
    have hrun : run ps.length (s.past 1) = .next ((s.past 1).past ps.length) :=
      ih hst (by simp [hp]) hqs
    rw [List.length_cons, run_succ hstep, hrun]
    simp [Nat.add_comm, Nat.add_left_comm]

end Sys2Proof.Machine

open Sys2Proof Sys2Proof.Machine

/-- Settles O3: one edge by the two instructions' own equations, many by `run_of_no_command`. -/
theorem noCommandWritesNothing : Obligations.NoCommandWritesNothing := by
  refine ⟨fun s _ hs => ⟨rfl, exec_idle_of_not_started hs⟩, fun s ps rest hst hp hq => ?_⟩
  have hdrop : s.pending.drop ps.length = rest := by rw [hp, List.drop_left]
  rw [run_of_no_command ps rest hst hp hq, State.past, hdrop]

/-- Settles O5: while busy the step reads no `start` (10_state.md R30), so the exit edge leaves
nothing behind, and the edge after it is an idle edge with `start = 1` like any other. -/
theorem startIsIgnoredWhileBusy : Obligations.StartIsIgnoredWhileBusy := by
  obtain ⟨-, -, step_start_of_busy, -, -⟩ := stepIsTotalAndReadsOnlyItsInputs
  refine fun s hbusy => ⟨fun p b => step_start_of_busy s p b hbusy, fun t _ hst hr hs hf => ?_⟩
  refine ⟨_, step_of_start hst hr hs, ?_⟩
  rw [acceptRead_of_not_faulted hf]
  exact ⟨rfl, rfl, rfl⟩

/-- Settles O4: in `IDLE` READ, and IDLE with `start = 1`, are `acceptRead`, which tests the driver
fault first (40_command.md R111). -/
theorem readIsAcceptedInIdle : Obligations.ReadIsAcceptedInIdle := by
  refine fun s hst => ⟨fun hf => ?_, fun hf => ?_, fun hs => ?_⟩
  · rw [exec_read_of_idle hst, acceptRead_of_faulted hf, raise_eq_exited]
    rfl
  · rw [exec_read_of_idle hst, acceptRead_of_not_faulted hf]
  · rw [exec_idle_of_started hs, exec_read_of_idle hst]

end

