-- ==== Sys2Proof/Proofs/Handshake.lean ====
section
/-! SUPPORT. The handshake (41_handshake.md): each of its two operations counts until its last tick
and there, with no driver fault, writes one bit of the pad and goes on. -/

namespace Sys2Proof

/-! ### The write of `OUT` at the end of the low pulse -/

/-- A level written to any pad: the direction stays, and only a pad that drives shows the level. -/
theorem Pad.withLevel_eq (p : Pad) (v : Level) :
    p.withLevel v = if p.dir = .drive then .drive v else .sense := by
  cases p with
  | drive _ => rfl
  | sense => rfl

end Sys2Proof

namespace Sys2Proof.Machine

variable {s : State}

/-! ### Before the last tick -/

theorem execHsLow_of_sleeping (hc : s.el ≠ s.hsLowTicks) :
    execHsLow s = .next (countTick s) := by
  simp [execHsLow, hc]

theorem execHsHigh_of_sleeping (hc : s.el ≠ s.hsHighTicks) :
    execHsHigh s = .next (countTick s) := by
  simp [execHsHigh, hc]

/-! ### At the last tick, with no driver fault -/

theorem execHsLow_of_completing (hc : s.el = s.hsLowTicks) (hf : s.faulted = false) :
    execHsLow s = .next (enter .hsHigh (lineLevel .high s)) := by
  simp [execHsLow, hc, hf]

theorem execHsHigh_of_completing (hc : s.el = s.hsHighTicks) (hf : s.faulted = false) :
    execHsHigh s = .next (enter .ack1 (lineDir .sense s)) := by
  simp [execHsHigh, hc, hf]

end Sys2Proof.Machine

open Sys2Proof Sys2Proof.Machine

/-- Settles O7: the three cases of an edge of HS_LOW; the level written at the last tick is
`Pad.withLevel_eq`. -/
theorem hsLowCountsThenDrivesHigh : Obligations.HsLowCountsThenDrivesHigh := by
  refine fun s => ⟨fun hc => ?_, fun hc hf => ?_, fun hc hf => ?_⟩
  · exact execHsLow_of_sleeping hc
  · exact execHsLow_of_faulted hc hf
  · have hpad : s.pad.withLevel .high = if s.oe = .drive then .drive .high else .sense :=
      Pad.withLevel_eq s.pad .high
    rw [← hpad]
    exact execHsLow_of_completing hc hf

/-- Settles O8: the three cases of an edge of HS_HIGH; its release is the same from every pad, so
that the last case does not need `OUT = 1`. -/
theorem hsHighCountsThenReleases : Obligations.HsHighCountsThenReleases := by
  refine fun s => ⟨fun hc => ?_, fun hc hf => ?_, fun hc hf _ => ?_⟩
  · exact execHsHigh_of_sleeping hc
  · exact execHsHigh_of_faulted hc hf
  · exact execHsHigh_of_completing hc hf

end

