-- ==== Sys2Proof/Proofs/TimedWait.lean ====
section
/-! SUPPORT. The rule of a timed wait (45_timed_wait.md R161): an instruction that is a `waitWhile`
obeys the rule of its level and its `then` part. -/

namespace Sys2Proof.Machine

variable {i : Instr} {v : Level} {k : State → State}

/-- The four outcomes of `waitWhile`, with the exit sequence and the tick written out. -/
theorem waitRule_of_exec_eq_waitWhile (h : ∀ s, exec i s = .next (waitWhile v k s)) :
    WaitRule i v k := by
  refine fun s => ⟨fun hf => ?_, fun hf hd => ?_, fun hf hl he => ?_, fun hf hl he => ?_⟩
  · rw [h, waitWhile_of_faulted hf, raise_eq_exited]
    rfl
  · rw [h, waitWhile_of_differs hf hd]
  · rw [h, waitWhile_of_expired hf hl he, raise_eq_exited]
    rfl
  · rw [h, waitWhile_of_polling hf hl he]
    rfl

end Sys2Proof.Machine

open Sys2Proof Sys2Proof.Machine

/-- Settles O10: each of the four instructions is a `waitWhile` with the level and the `then` part
that its rule names (42_acknowledge.md R130 to R132, 43_bit_decode.md R141). -/
theorem acknowledgeAndBitLowWaits : Obligations.AcknowledgeAndBitLowWaits := by
  refine ⟨?ack1, ?ack2, ?ack3, ?bitLow⟩
  case ack1 => exact waitRule_of_exec_eq_waitWhile fun _ => rfl
  case ack2 => exact waitRule_of_exec_eq_waitWhile fun _ => rfl
  case ack3 => exact waitRule_of_exec_eq_waitWhile fun _ => rfl
  case bitLow => exact waitRule_of_exec_eq_waitWhile fun _ => rfl

end

