-- ==== Sys2Proof/Proofs/BitDecode.lean ====
section
/-! SUPPORT. The bit decision and the shift (43_bit_decode.md R142, R143) in the spec's
arithmetic. -/

namespace Sys2Proof.Machine

/-- The shift as a forty-bit word: `shiftIn_toNat` without its remainder. -/
theorem shiftIn_eq_ofNat (v : FrameWord) (b : Bool) :
    shiftIn v b = BitVec.ofNat 40 (2 * v.toNat + b.toNat) :=
  BitVec.eq_of_toNat_eq (by rw [shiftIn_toNat, BitVec.toNat_ofNat])

/-- The decision as a number: the threshold itself still decides 0 (R142). -/
theorem State.bit_toNat (s : State) :
    s.bit.toNat = if s.threshTicks < s.cnt + 1 then 1 else 0 := by
  rw [State.bit, State.el, Bool.toNat, Bool.cond_decide]

/-- What the completing edge of BIT_HIGH leaves in `SR`. -/
theorem shiftIn_bit (s : State) :
    shiftIn s.sr s.bit =
      BitVec.ofNat 40 (2 * s.sr.toNat + if s.threshTicks < s.cnt + 1 then 1 else 0) := by
  rw [shiftIn_eq_ofNat, State.bit_toNat]

end Sys2Proof.Machine

open Sys2Proof Sys2Proof.Machine

/-- Settles O11: BIT_HIGH is the wait for the end of the high, whose `then` part shifts in the
measured bit; `shiftIn_bit` gives that shift in the arithmetic of the rule. -/
theorem bitHighDecidesAndShifts : Obligations.BitHighDecidesAndShifts := by
  refine waitRule_of_exec_eq_waitWhile fun s => ?_
  simp only [← shiftIn_bit]
  rfl

end

