-- ==== Sys2Proof/Proofs/Validate.lean ====
section
/-! SUPPORT. Validation and extraction (44_validate.md R151 to R153): with no driver fault `CHECK`
exits by the comparison of the sum, and a successful exit carries bytes 0 and 2 of the frame. -/

namespace Sys2Proof.Machine

variable {s : State}

/-! ### The two outcomes of the comparison -/

theorem execCheck_of_sumOk (hf : s.faulted = false) (hs : s.sumOk = true) :
    execCheck s = .next (exitOk s) := by
  simp [execCheck, hf, hs]

theorem execCheck_of_not_sumOk (hf : s.faulted = false) (hs : ¬ s.sumOk = true) :
    execCheck s = .next (raise .checksumMismatch s) := by
  simp [execCheck, hf, hs]

/-! ### The successful exit -/

/-- `exit OK` with every write spelled out and the two bytes as numbers (60_exceptions.md R176,
44_validate.md R153). -/
theorem exitOk_eq_exited (s : State) :
    exitOk s = s.exited .ok (BitVec.ofNat 8 (valueByte s.sr.toNat 0))
      (BitVec.ofNat 8 (valueByte s.sr.toNat 2)) := by
  rw [← frameByte_eq_valueByte, ← frameByte_eq_valueByte]
  rfl

end Sys2Proof.Machine

open Sys2Proof Sys2Proof.Machine

/-- Settles O17: the driver fault first, then the comparison, which `sumOk_iff` states in plain
arithmetic. -/
theorem checkComparesTheChecksum : Obligations.CheckComparesTheChecksum := by
  refine fun s => ⟨fun hf => ?fault, fun hf hsum => ?valid, fun hf hsum => ?mismatch⟩
  case fault => exact execCheck_of_faulted hf
  case valid =>
    rw [← exitOk_eq_exited]
    exact execCheck_of_sumOk hf ((sumOk_iff s).mpr hsum)
  case mismatch => exact execCheck_of_not_sumOk hf (mt (sumOk_iff s).mp hsum)

end

