-- ==== Sys2Proof/Proofs/WaitCeiling.lean ====
section
/-! SUPPORT. A timed wait over its edges (45_timed_wait.md R161, R164): it polls while its samples
are at its level, and its last edge completes it or exceeds the ceiling. -/

namespace Sys2Proof.Machine

variable {s : State} {v : Level}

/-! ### The five waits as one -/

/-- The `then` part of each wait (42_acknowledge.md R130 to R132, 43_bit_decode.md R141, R142); an
operation that is no wait has none. -/
def waitThen : SeqOp → State → State
  | .ack1 => enter .ack2
  | .ack2 => enter .ack3
  | .ack3 => fun u => enter .bitLow { u with bitn := 0 }
  | .bitLow => enter .bitHigh
  | .bitHigh => fun u => completeBit u.bit u
  | .idle | .hsLow | .hsHigh | .check => id

theorem exec_instr_of_wait {o : SeqOp} (hw : waitLevel o = some v) (s : State) :
    exec o.instr s = .next (waitWhile v (waitThen o) s) := by
  cases o with
  | ack1 | ack2 | ack3 | bitLow | bitHigh => cases hw; rfl
  | idle | hsLow | hsHigh | check => cases hw

/-- A wait that completes goes on to another operation of the read. -/
theorem waitThen_st {o : SeqOp} (hw : waitLevel o = some v) (s : State) :
    (waitThen o s).st ≠ o ∧ (waitThen o s).st ≠ .idle := by
  cases o with
  | ack1 | ack2 | ack3 | bitLow => simp [waitThen]
  | bitHigh =>
    simp only [waitThen, completeBit_st]
    split <;> decide
  | idle | hsLow | hsHigh | check => cases hw

theorem waitThen_cnt {o : SeqOp} (hw : waitLevel o = some v) (s : State) :
    (waitThen o s).cnt = 0 := by
  cases o with
  | ack1 | ack2 | ack3 | bitLow | bitHigh => rfl
  | idle | hsLow | hsHigh | check => cases hw

@[simp] theorem waitThen_done (o : SeqOp) (s : State) : (waitThen o s).done = s.done := by
  cases o <;> rfl

@[simp] theorem waitThen_pending (o : SeqOp) (s : State) : (waitThen o s).pending = s.pending := by
  cases o <;> rfl

/-! ### One edge of a wait -/

theorem step_of_wait (hw : waitLevel s.st = some v) (hr : s.pins.rst = false) :
    step s = .next (tick (waitWhile v (waitThen s.st) s)) :=
  step_of_exec hr (exec_instr_of_wait hw s)

theorem step_of_wait_polling (hw : waitLevel s.st = some v) (hr : s.pins.rst = false)
    (hf : s.faulted = false) (hl : s.lineRead = v) (he : s.el ≤ s.timeoutTicks) :
    step s = .next (tick (countTick s)) := by
  rw [step_of_wait hw hr, waitWhile_of_polling hf hl he]

theorem step_of_wait_differs (hw : waitLevel s.st = some v) (hr : s.pins.rst = false)
    (hf : s.faulted = false) (hl : s.lineRead ≠ v) :
    step s = .next (tick (waitThen s.st s)) := by
  rw [step_of_wait hw hr, waitWhile_of_differs hf hl]

theorem step_of_wait_expired (hw : waitLevel s.st = some v) (hr : s.pins.rst = false)
    (hf : s.faulted = false) (hl : s.lineRead = v) (he : s.timeoutTicks < s.el) :
    step s = .next (tick (raise .timeout s)) := by
  rw [step_of_wait hw hr, waitWhile_of_expired hf hl he]

/-! ### The edges of a wait -/

/-- The state after `k` polling edges of a wait: only `CNT` and time have moved on. -/
def State.polled (s : State) (k : Nat) : State := { s.past k with cnt := s.cnt + k }

theorem tick_countTick_eq_polled (s : State) : tick (countTick s) = s.polled 1 := by
  simp [State.polled, tick, countTick, State.el]

theorem State.polled_polled (s : State) (j k : Nat) :
    (s.polled j).polled k = s.polled (j + k) := by
  simp [State.polled, Nat.add_assoc]

/-- As many samples at the level as the ceiling admits leave the wait polling, from any `CNT`. -/
theorem run_of_wait_polling (ps rest : List Pins) (hw : waitLevel s.st = some v)
    (hp : s.pending = ps ++ rest)
    (hq : ∀ p ∈ ps, p.rst = false ∧ p.drvFault = false ∧ p.lineIn = v)
    (hc : s.cnt + ps.length ≤ s.timeoutTicks) :
    run ps.length s = .next (s.polled ps.length) := by
  induction ps generalizing s with
  | nil => rfl
  | cons p ps ih =>
    obtain ⟨⟨hr, hf, hl⟩, hqs⟩ := List.forall_mem_cons.mp hq
    rw [List.length_cons] at hc ⊢
    have hpins : s.pins = p := State.pins_of_cons hp
    have he : s.el ≤ s.timeoutTicks := by rw [State.el]; omega
    have hstep : step s = .next (s.polled 1) :=
      tick_countTick_eq_polled s ▸ step_of_wait_polling hw (hpins ▸ hr)
        (by rw [State.faulted, hpins, hf]) (by rw [State.lineRead, hpins, hl]) he
    have hrest : (s.polled 1).pending = ps ++ rest := by simp [State.polled, hp]
    have hcnt : (s.polled 1).cnt + ps.length ≤ (s.polled 1).timeoutTicks := by
      change s.cnt + 1 + ps.length ≤ s.timeoutTicks
      omega
    have hrun : run ps.length (s.polled 1) = .next ((s.polled 1).polled ps.length) :=
      ih hw hrest hqs hcnt
    rw [run_succ hstep, hrun, State.polled_polled, Nat.add_comm]

/-- A run and one more edge. -/
theorem run_succ_of_run {t u : State} {k : Nat} (h : run k s = .next t) (hu : step t = .next u) :
    run (k + 1) s = .next u := by
  rw [run_add h, run_succ hu, run]

end Sys2Proof.Machine

open Sys2Proof Sys2Proof.Machine

/-- Settles O12: the samples `ps` leave the wait polling by `run_of_wait_polling`; the edge of `q`,
at `el = ps.length + 1`, completes the wait or, at `el = T + 1`, exceeds the ceiling. -/
theorem waitCeilingIsExact : Obligations.WaitCeilingIsExact := by
  intro s v ps q rest hw hcnt hp hps hr hf hlen
  have hrun : run ps.length s = .next (s.polled ps.length) :=
    run_of_wait_polling ps (q :: rest) hw hp hps (by rwa [hcnt, Nat.zero_add])
  have hpolled : s.polled ps.length =
      { s with cnt := ps.length, pending := q :: rest, edge := s.edge + ps.length } := by
    simp [State.polled, hcnt, hp]
  rw [hpolled] at hrun
  refine ⟨hrun, fun hl => ?completes, fun hl hlast => ?expires⟩
  case completes =>
    refine ⟨_, run_succ_of_run hrun (step_of_wait_differs hw hr hf hl), ?_⟩
    exact ⟨(waitThen_st hw _).1, (waitThen_st hw _).2, waitThen_cnt hw _, by simp, by simp⟩
  case expires =>
    have he : s.timeoutTicks < ps.length + 1 := by omega
    exact run_succ_of_run hrun (step_of_wait_expired hw hr hf hl he)

end

