-- ==== Sys2Proof/Proofs/Reset.lean ====
section
/-! SUPPORT. The reset edge (70_reset_and_hazards.md R200). -/

namespace Sys2Proof.Machine

/-- The state after a reset edge holds the registers of `State.reset`, whatever the edge found. -/
theorem tick_resetEdge_sameRegisters (s : State) :
    SameRegisters (tick (resetEdge s)) State.reset := by
  simp [SameRegisters, State.reset]

end Sys2Proof.Machine

open Sys2Proof Sys2Proof.Machine

/-- Settles O1: the step answers `tick (resetEdge s)` by `step_of_rst`; each register is the reset
edge's, which time moving on leaves as it is. -/
theorem resetEdgeGivesTheResetValues : Obligations.ResetEdgeGivesTheResetValues := by
  intro s hr
  exact ⟨tick (resetEdge s), step_of_rst hr, by simpa using tick_resetEdge_sameRegisters s⟩

end

