-- ==== Sys2Proof/Proofs/Encoding.lean ====
section
/-! SUPPORT. The decoder and the encoder of 30_encoding.md: a frame word and its five bytes are the
same forty bits, a word that decodes is its instruction's, and the legal words are those that
decode. -/

namespace Sys2Proof

/-! ### A frame word and its bytes (10_state.md R22, 30_encoding.md R81) -/

theorem frameByte_frameWord (h f t g c : Byte) {i : Nat} (hi : i < 5) :
    frameByte (frameWord h f t g c) i = [h, f, t, g, c].getD i 0 := by
  have hh := h.isLt
  have hf := f.isLt
  have ht := t.isLt
  have hg := g.isLt
  have hc := c.isLt
  apply BitVec.eq_of_toNat_eq
  rw [frameByte_toNat, frameWord_toNat]
  interval_cases i <;> simp only [List.getD_cons_zero, List.getD_cons_succ] <;> omega

theorem frameWord_frameByte (v : FrameWord) :
    frameWord (frameByte v 0) (frameByte v 1) (frameByte v 2) (frameByte v 3) (frameByte v 4) =
      v := by
  have hv := v.isLt
  apply BitVec.eq_of_toNat_eq
  rw [frameWord_toNat]
  simp only [frameByte_toNat]
  omega

/-- Bit `j` of byte `i` is bit `32 - 8 * i + j` of the frame word. -/
theorem getLsbD_frameByte (v : FrameWord) (i : Nat) {j : Nat} (hj : j < 8) :
    (frameByte v i).getLsbD j = v.getLsbD (32 - 8 * i + j) := by
  simp [frameByte, hj]

/-! ### Format `WIRE40` -/

theorem decodeWire40_toNat (v : FrameWord) :
    decodeWire40 v.toNat = .ok
      (.frame (frameByte v 0) (frameByte v 1) (frameByte v 2) (frameByte v 3) (frameByte v 4)) := by
  simp [decodeWire40, v.isLt]

theorem decodeWire40_frameWord (h f t g c : Byte) :
    decodeWire40 (frameWord h f t g c).toNat = .ok (.frame h f t g c) := by
  rw [decodeWire40_toNat]
  simp [frameByte_frameWord]

theorem decodeWire40_of_wide {w : Nat} (hw : 2 ^ 40 ≤ w) : decodeWire40 w = .error .tooWide :=
  if_neg (Nat.not_lt.mpr hw)

/-- A number of forty bits is a frame word's. -/
theorem exists_frameWord_of_lt {w : Nat} (hw : w < 2 ^ 40) : ∃ v : FrameWord, v.toNat = w :=
  ⟨BitVec.ofNat 40 w, Nat.mod_eq_of_lt hw⟩

/-! ### Words that decode -/

/-- A word that decodes is the word of its instruction, format by format. -/
theorem encode_of_decode {f : Format} {w : Nat} {i : Instr} (h : decode f w = .ok i) :
    encode i = { format := f, bits := w } := by
  cases f with
  | cmd | sym => obtain _ | _ | w := w <;> cases h <;> rfl
  | padc | res => obtain _ | _ | _ | _ | w := w <;> cases h <;> rfl
  | seq =>
    change decodeSeq w = .ok i at h
    unfold decodeSeq at h
    split at h
    case h_10 => split at h <;> cases h
    all_goals cases h; rfl
  | wire40 =>
    rcases Nat.lt_or_ge w (2 ^ 40) with hw | hw
    · obtain ⟨v, rfl⟩ := exists_frameWord_of_lt hw
      cases (decodeWire40_toNat v).symm.trans h
      simp [encode, frameWord_frameByte]
    · cases (decodeWire40_of_wide hw).symm.trans h

/-- The word of every instruction is a legal word of its format. -/
theorem encode_wellFormed (i : Instr) : (encode i).wellFormed = true := by
  cases i with
  | frame h f t g c => exact Laws.CodeFits.frame h f t g c
  | _ => rfl

/-- Every legal word decodes. -/
theorem decode_of_wellFormed {f : Format} {w : Nat}
    (h : (CodeWord.mk f w).wellFormed = true) : ∃ i, decode f w = .ok i := by
  obtain ⟨hfit, hres⟩ := (CodeWord.wellFormed_iff _).mp h
  cases f with
  | cmd | res | sym => interval_cases w <;> exact ⟨_, rfl⟩
  | padc =>
    have hw : 0 < w := Nat.pos_of_ne_zero (of_decide_eq_true hres)
    interval_cases w <;> exact ⟨_, rfl⟩
  | seq =>
    have hw : w ≤ 8 := of_decide_eq_true hres
    interval_cases w <;> exact ⟨_, rfl⟩
  | wire40 =>
    obtain ⟨v, rfl⟩ := exists_frameWord_of_lt hfit
    exact ⟨_, decodeWire40_toNat v⟩

/-! ### Words that are refused (30_encoding.md R89) -/

theorem decodeSeq_of_reserved {w : Nat} (h9 : 9 ≤ w) (h16 : w < 16) :
    decodeSeq w = .error .reservedSeqCode := by
  interval_cases w <;> rfl

/-- A word with a bit above its format's width is refused as such. -/
theorem decode_of_wide {f : Format} {w : Nat} (hw : 2 ^ f.width ≤ w) :
    decode f w = .error .tooWide := by
  obtain ⟨k, rfl⟩ := Nat.exists_eq_add_of_le' hw
  cases f with
  | cmd | padc | res | sym => rfl
  | seq => exact if_neg (t := .error .reservedSeqCode) (Nat.not_lt.mpr hw)
  | wire40 => exact decodeWire40_of_wide hw

end Sys2Proof

open Sys2Proof Sys2Proof.Machine

/-- Settles O34: only FRAME has operands, and its bytes come back by `decodeWire40_frameWord`; the
other rows have one word each. -/
theorem decodeOfEncodeIsTheInstruction : Obligations.DecodeOfEncodeIsTheInstruction := by
  intro i _
  cases i with
  | frame h f t g c => exact decodeWire40_frameWord h f t g c
  | _ => rfl

/-- Settles O35: the first part is `encode_of_decode`, by which a word that decodes is legal, as
every encoded word is; a legal word decodes by `decode_of_wellFormed`. -/
theorem decodedWordsAreTheirEncodings : Obligations.DecodedWordsAreTheirEncodings := by
  refine ⟨fun f w i h => encode_of_decode h, fun f w => ⟨?_, decode_of_wellFormed⟩⟩
  rintro ⟨i, h⟩
  rw [← encode_of_decode h]
  exact encode_wellFormed i

/-- Settles O36: the reserved codes of SEQ by `decodeSeq_of_reserved`, the words too wide by
`decode_of_wide`. -/
theorem reservedWordsAreRefusedByName : Obligations.ReservedWordsAreRefusedByName :=
  ⟨fun _ h9 h16 => decodeSeq_of_reserved h9 h16, rfl, fun _ _ hw => decode_of_wide hw⟩

/-- Settles O37: the written words are encodings, the last one of the frame `32 00 1B 00 4D`, and so
decode by `decodeOfEncodeIsTheInstruction`. -/
theorem writtenWordsDecode : Obligations.WrittenWordsDecode :=
  ⟨rfl, rfl, rfl, rfl, rfl, rfl,
    decodeOfEncodeIsTheInstruction (.frame 0x32 0x00 0x1B 0x00 0x4D) rfl⟩

end

