-- ==== Sys2Proof/Proofs/Edge.lean ====
section
/-! SUPPORT. What one edge with `rst = 0` can do, said once (10_state.md R29, R30): the relation
`Edge`, one constructor for each way the operation in `ST` can end its edge, and what every edge
leaves unchanged. -/

namespace Sys2Proof.Machine

variable {s t : State}

/-! ### The ways an edge can end -/

/-- The registers before and after an edge with `rst = 0`, before time moves on. -/
inductive Edge (s : State) : State → Prop
  /-- `IDLE` without a command (40_command.md R110). -/
  | noCommand (hst : s.st = .idle) (hs : s.started = false) : Edge s s
  /-- `IDLE` accepts a READ (40_command.md R111). -/
  | accept (hst : s.st = .idle) (hs : s.started = true) (hf : s.faulted = false) :
    Edge s (acceptRead s)
  /-- A driver fault at one of the edges of 20_memory.md R57. -/
  | fault (hc : s.consultsFault) (hf : s.faulted = true) : Edge s (raise .driverFault s)
  /-- `HS_LOW` before its last tick (41_handshake.md R121). -/
  | holdLow (hst : s.st = .hsLow) (hc : s.el ≠ s.hsLowTicks) : Edge s (countTick s)
  /-- `HS_LOW` at its last tick (41_handshake.md R121). -/
  | driveHigh (hst : s.st = .hsLow) (hc : s.el = s.hsLowTicks) (hf : s.faulted = false) :
    Edge s (enter .hsHigh (lineLevel .high s))
  /-- `HS_HIGH` before its last tick (41_handshake.md R122). -/
  | holdHigh (hst : s.st = .hsHigh) (hc : s.el ≠ s.hsHighTicks) : Edge s (countTick s)
  /-- `HS_HIGH` at its last tick (41_handshake.md R122). -/
  | release (hst : s.st = .hsHigh) (hc : s.el = s.hsHighTicks) (hf : s.faulted = false) :
    Edge s (enter .ack1 (lineDir .sense s))
  /-- A wait whose level stays, within the ceiling (45_timed_wait.md R161). -/
  | poll {v : Level} (hw : waitLevel s.st = some v) (hf : s.faulted = false)
    (hl : s.lineRead = v) (he : s.el ≤ s.timeoutTicks) : Edge s (countTick s)
  /-- A wait whose level stays beyond the ceiling (45_timed_wait.md R161). -/
  | expire {v : Level} (hw : waitLevel s.st = some v) (hf : s.faulted = false)
    (hl : s.lineRead = v) (he : s.timeoutTicks < s.el) : Edge s (raise .timeout s)
  /-- A wait whose level has changed (45_timed_wait.md R161). -/
  | complete {v : Level} (hw : waitLevel s.st = some v) (hf : s.faulted = false)
    (hl : s.lineRead ≠ v) : Edge s (waitThen s.st s)
  /-- `CHECK` with a checksum that holds (44_validate.md R151). -/
  | deliver (hst : s.st = .check) (hf : s.faulted = false) (hsum : s.sumOk = true) :
    Edge s (exitOk s)
  /-- `CHECK` with a checksum that does not (44_validate.md R151). -/
  | mismatch (hst : s.st = .check) (hf : s.faulted = false) (hsum : ¬ s.sumOk = true) :
    Edge s (raise .checksumMismatch s)

theorem inWait_of_waitLevel {v : Level} (hw : waitLevel s.st = some v) : s.inWait := by
  cases hst : s.st with
  | ack1 | ack2 | ack3 | bitLow | bitHigh => simp [State.inWait, hst]
  | idle | hsLow | hsHigh | check => rw [hst] at hw; cases hw

theorem consultsFault_of_wait {v : Level} (hw : waitLevel s.st = some v) : s.consultsFault :=
  .inr (.inr (.inr (.inl (inWait_of_waitLevel hw))))

theorem not_idle_of_wait {v : Level} (hw : waitLevel s.st = some v) : s.st ≠ .idle := by
  intro hst
  rw [hst] at hw
  cases hw

/-! ### `Edge` is `exec` of the operation in `ST` -/

theorem edge_waitWhile {v : Level} (hw : waitLevel s.st = some v) :
    Edge s (waitWhile v (waitThen s.st) s) := by
  rcases waitWhile_cases v (waitThen s.st) s with
    ⟨hf, h⟩ | ⟨hf, hl, h⟩ | ⟨hf, hl, he, h⟩ | ⟨hf, hl, he, h⟩ <;> rw [h]
  · exact .fault (consultsFault_of_wait hw) hf
  · exact .complete hw hf hl
  · exact .expire hw hf hl he
  · exact .poll hw hf hl he

theorem exists_edge_of_wait {v : Level} (hw : waitLevel s.st = some v) :
    ∃ t, exec (fetch s) s = .next t ∧ Edge s t :=
  ⟨_, exec_instr_of_wait hw s, edge_waitWhile hw⟩

/-- Every operation answers a next state, in one of the ways of `Edge`. -/
theorem exists_edge (s : State) : ∃ t, exec (fetch s) s = .next t ∧ Edge s t := by
  cases hst : s.st with
  | idle =>
    rw [fetch_of_idle hst]
    cases hs : s.started with
    | false => exact ⟨_, exec_idle_of_not_started hs, .noCommand hst hs⟩
    | true =>
      refine ⟨_, exec_idle_of_started hs, ?_⟩
      cases hf : s.faulted with
      | false => exact .accept hst hs hf
      | true => exact acceptRead_of_faulted hf ▸ .fault (.inl ⟨hst, hs⟩) hf
  | hsLow =>
    rw [fetch, hst]
    by_cases hc : s.el = s.hsLowTicks
    · cases hf : s.faulted with
      | false => exact ⟨_, execHsLow_of_completing hc hf, .driveHigh hst hc hf⟩
      | true => exact ⟨_, execHsLow_of_faulted hc hf, .fault (.inr (.inl ⟨hst, hc⟩)) hf⟩
    · exact ⟨_, execHsLow_of_sleeping hc, .holdLow hst hc⟩
  | hsHigh =>
    rw [fetch, hst]
    by_cases hc : s.el = s.hsHighTicks
    · cases hf : s.faulted with
      | false => exact ⟨_, execHsHigh_of_completing hc hf, .release hst hc hf⟩
      | true => exact ⟨_, execHsHigh_of_faulted hc hf, .fault (.inr (.inr (.inl ⟨hst, hc⟩))) hf⟩
    · exact ⟨_, execHsHigh_of_sleeping hc, .holdHigh hst hc⟩
  | ack1 | ack2 | ack3 | bitLow | bitHigh =>
    exact exists_edge_of_wait (by rw [hst]; rfl)
  | check =>
    rw [fetch, hst]
    cases hf : s.faulted with
    | true => exact ⟨_, execCheck_of_faulted hf, .fault (by simp [State.consultsFault, hst]) hf⟩
    | false =>
      by_cases hsum : s.sumOk = true
      · exact ⟨_, execCheck_of_sumOk hf hsum, .deliver hst hf hsum⟩
      · exact ⟨_, execCheck_of_not_sumOk hf hsum, .mismatch hst hf hsum⟩

theorem edge_of_exec (h : exec (fetch s) s = .next t) : Edge s t := by
  obtain ⟨u, hu, he⟩ := exists_edge s
  cases hu.symm.trans h
  exact he

theorem Edge.exec_fetch (h : Edge s t) : exec (fetch s) s = .next t := by
  cases h with
  | noCommand hst hs => rw [fetch_of_idle hst, exec_idle_of_not_started hs]
  | accept hst hs hf => rw [fetch_of_idle hst, exec_idle_of_started hs]
  | fault hc hf => exact exec_fetch_of_faulted hc hf
  | holdLow hst hc => rw [fetch, hst]; exact execHsLow_of_sleeping hc
  | driveHigh hst hc hf => rw [fetch, hst]; exact execHsLow_of_completing hc hf
  | holdHigh hst hc => rw [fetch, hst]; exact execHsHigh_of_sleeping hc
  | release hst hc hf => rw [fetch, hst]; exact execHsHigh_of_completing hc hf
  | poll hw hf hl he => rw [fetch, exec_instr_of_wait hw, waitWhile_of_polling hf hl he]
  | expire hw hf hl he => rw [fetch, exec_instr_of_wait hw, waitWhile_of_expired hf hl he]
  | complete hw hf hl => rw [fetch, exec_instr_of_wait hw, waitWhile_of_differs hf hl]
  | deliver hst hf hsum => rw [fetch, hst]; exact execCheck_of_sumOk hf hsum
  | mismatch hst hf hsum => rw [fetch, hst]; exact execCheck_of_not_sumOk hf hsum

theorem Edge.step_eq (h : Edge s t) (hr : s.pins.rst = false) : step s = .next (tick t) :=
  step_of_exec hr h.exec_fetch

/-- The two kinds of step: a reset edge, and one of `Edge` with time moving on. -/
theorem step_edge {u : State} (h : step s = .next u) :
    (s.pins.rst = true ∧ u = tick (resetEdge s)) ∨
    (s.pins.rst = false ∧ ∃ t, Edge s t ∧ u = tick t) := by
  rcases step_cases h with hr | ⟨hr, t, ht, hu⟩
  · exact .inl hr
  · exact .inr ⟨hr, t, edge_of_exec ht, hu⟩

theorem seqInstr_wellFormed (o : SeqOp) : o.instr.wellFormed = true := by
  cases o <;> rfl

/-! ### What every edge leaves unchanged -/

@[simp] theorem acceptRead_params (s : State) : (acceptRead s).params = s.params := by
  unfold acceptRead
  split <;> rfl

@[simp] theorem acceptRead_pending (s : State) : (acceptRead s).pending = s.pending := by
  unfold acceptRead
  split <;> rfl

@[simp] theorem acceptRead_edge (s : State) : (acceptRead s).edge = s.edge := by
  unfold acceptRead
  split <;> rfl

@[simp] theorem waitThen_params (o : SeqOp) (s : State) : (waitThen o s).params = s.params := by
  cases o <;> rfl

@[simp] theorem waitThen_edge (o : SeqOp) (s : State) : (waitThen o s).edge = s.edge := by
  cases o <;> rfl

/-- The parameters and the input stream are no registers (10_state.md R35, log 2, 3, 4). -/
theorem Edge.frame (h : Edge s t) :
    t.params = s.params ∧ t.pending = s.pending ∧ t.edge = s.edge := by
  cases h <;> simp

end Sys2Proof.Machine

open Sys2Proof Sys2Proof.Machine

/-- Settles O26: a reset edge and an edge that runs an operation (`Edge.frame`) both leave the
parameters, and time moves on by one entry of the list. -/
theorem stepKeepsParametersAndTakesOneInput : Obligations.StepKeepsParametersAndTakesOneInput := by
  intro s u h
  rcases step_edge h with ⟨-, rfl⟩ | ⟨-, t, he, rfl⟩
  · simp
  · obtain ⟨hparams, hpending, hedge⟩ := he.frame
    simp [hparams, hpending, hedge]

/-- Settles O23: the code in `ST` decodes to the operation that the step fetches, and by
`Edge.frame` no operation uses up an input. -/
theorem stepRunsTheDecodedOperation : Obligations.StepRunsTheDecodedOperation := by
  intro s i hr hi
  have hfetch : i = fetch s := by
    unfold fetch
    cases hst : s.st <;> rw [hst] at hi <;> cases hi <;> rfl
  obtain ⟨t, ht, he⟩ := exists_edge s
  obtain ⟨-, hpending, hedge⟩ := he.frame
  have hstep : step s = .next { t with pending := s.pending.tail, edge := s.edge + 1 } := by
    rw [step_of_exec hr ht, tick, hpending, hedge]
  subst hfetch
  exact ⟨seqInstr_wellFormed s.st, t, ht, hpending, hedge, hstep⟩

end

