-- ==== Sys2Proof/Proofs/Invariant.lean ====
section
/-! SUPPORT. The invariants of 10_state.md R32: every way an edge can end (`Edge`) keeps them, and a
reset edge brings them about. -/

namespace Sys2Proof

/-- The pad that an operation finds, by 10_state.md R32 items 1 and 2. -/
def SeqOp.pad : SeqOp → Pad
  | .hsLow => .drive .low
  | .idle | .hsHigh => .drive .high
  | .ack1 | .ack2 | .ack3 | .bitLow | .bitHigh | .check => .sense

end Sys2Proof

namespace Sys2Proof.Machine

variable {s t : State}

/-! ### The invariants in the terms of a read in progress -/

/-- No result is shown and none is left over (10_state.md R32 items 7 and 8). -/
abbrev State.Blank (s : State) : Prop :=
  s.done = false ∧ s.code = .ok ∧ s.hum = 0 ∧ s.temp = 0

/-- Items 1 and 2 together give the pad of each operation. -/
theorem invDirection_and_invLevel_iff (s : State) :
    InvDirection s ∧ InvLevel s ↔ s.pad = s.st.pad := by
  rw [InvDirection, InvLevel, State.oe, State.out]
  cases s.st <;> rcases s.pad with (_ | _) | _ <;> simp [SeqOp.pad]

theorem Invariants.pad (hi : Invariants s) : s.pad = s.st.pad :=
  (invDirection_and_invLevel_iff s).mp ⟨hi.1, hi.2.1⟩

theorem Invariants.bitn (hi : Invariants s) : InvBitn s := hi.2.2.2.1

theorem Invariants.sr (hi : Invariants s) : InvSr s := hi.2.2.2.2.1

theorem Invariants.cnt (hi : Invariants s) : InvCnt s := hi.2.2.2.2.2.1

theorem Invariants.blank (hi : Invariants s) (hbusy : s.st ≠ .idle) : s.Blank := by
  obtain ⟨-, -, -, -, -, -, hdone, hres, -⟩ := hi
  exact ⟨hdone hbusy, hres (hdone hbusy)⟩

/-- While a read is in progress the invariants are these. -/
theorem invariants_of_busy (hbusy : s.st ≠ .idle) (hpad : s.pad = s.st.pad) (hbitn : InvBitn s)
    (hsr : InvSr s) (hcnt : InvCnt s) (hblank : s.Blank) : Invariants s := by
  obtain ⟨hdone, hclear⟩ := hblank
  obtain ⟨hdir, hlevel⟩ := (invDirection_and_invLevel_iff s).mpr hpad
  exact ⟨hdir, hlevel, fun h => absurd h hbusy, hbitn, hsr, hcnt, fun _ => hdone, fun _ => hclear,
    fun h => absurd h.1 (by simp [hdone])⟩

/-- An operation that has just been entered is within the bounds of item 6. -/
theorem invCnt_of_cnt_eq_zero (hw : s.params.wellFormed = true) (hcnt : s.cnt = 0) :
    InvCnt s := by
  obtain ⟨-, -, hN, hM⟩ := ticks_pos hw
  rw [InvCnt, hcnt]
  exact ⟨fun _ => hN, fun _ => hM, fun _ => Nat.zero_le _, fun _ => rfl⟩

/-- Item 3 is what the idle engine keeps besides the result. -/
theorem invariants_of_idle (hst : s.st = .idle) (hpad : s.pad = .drive .high) (hbitn : s.bitn = 0)
    (hsr : s.sr = 0) (hcnt : s.cnt = 0) (hres : InvResult s) : Invariants s := by
  obtain ⟨hdir, hlevel⟩ := (invDirection_and_invLevel_iff s).mpr (hst ▸ hpad)
  refine ⟨hdir, hlevel, fun _ => ⟨hcnt, hbitn, hsr, ?_, ?_⟩, ?_, ?_, ?_, fun h => absurd hst h,
    hres⟩
  · rw [State.oe, hpad]; rfl
  · rw [State.out, hpad]; rfl
  · simp [InvBitn, hst, hbitn]
  · simp [InvSr, hsr]
  · simp [InvCnt, State.inWait, hst]

/-! ### The idle states: after a reset and after an exit -/

theorem invariants_resetEdge (s : State) : Invariants (resetEdge s) :=
  invariants_of_idle rfl rfl rfl rfl rfl (by simp [InvResult])

/-- After an exit only the result is left, and an error has none (60_exceptions.md R176). -/
theorem invariants_exitRead {c : ResCode} {h t : Byte} (hc : c ≠ .ok → h = 0 ∧ t = 0)
    (s : State) : Invariants (exitRead c h t s) :=
  invariants_of_idle rfl rfl rfl rfl rfl ⟨fun hd => absurd hd (by simp), fun hd => hc hd.2⟩

theorem invariants_raise (e : ReadError) (s : State) : Invariants (raise e s) :=
  invariants_exitRead (fun _ => ⟨rfl, rfl⟩) s

theorem invariants_exitOk (s : State) : Invariants (exitOk s) :=
  invariants_exitRead (fun hc => absurd rfl hc) s

/-! ### A read in progress -/

theorem invariants_acceptRead (hw : s.params.wellFormed = true) (hf : s.faulted = false) :
    Invariants (acceptRead s) := by
  rw [acceptRead_of_not_faulted hf]
  exact invariants_of_busy nofun rfl (by simp [InvBitn]) (by simp [InvSr])
    (invCnt_of_cnt_eq_zero hw rfl) ⟨rfl, rfl, rfl, rfl⟩

@[simp] theorem countTick_hsLowTicks (s : State) :
    (countTick s).hsLowTicks = s.hsLowTicks := rfl
@[simp] theorem countTick_hsHighTicks (s : State) :
    (countTick s).hsHighTicks = s.hsHighTicks := rfl
@[simp] theorem countTick_timeoutTicks (s : State) :
    (countTick s).timeoutTicks = s.timeoutTicks := rfl

/-- A tick of a sleep or of a wait changes `CNT` alone. -/
theorem invariants_countTick (hi : Invariants s) (hbusy : s.st ≠ .idle)
    (hcnt : InvCnt (countTick s)) : Invariants (countTick s) :=
  invariants_of_busy hbusy hi.pad hi.bitn hi.sr hcnt (hi.blank hbusy)

theorem invariants_driveHigh (hw : s.params.wellFormed = true) (hi : Invariants s)
    (hst : s.st = .hsLow) : Invariants (enter .hsHigh (lineLevel .high s)) := by
  have hbitn : s.bitn = 0 := hi.bitn.1 (.inl hst)
  exact invariants_of_busy nofun (by simp [hi.pad, hst, SeqOp.pad, Pad.withLevel])
    (by simp [InvBitn, hbitn]) hi.sr (invCnt_of_cnt_eq_zero hw rfl) (hi.blank (by simp [hst]))

theorem invariants_release (hw : s.params.wellFormed = true) (hi : Invariants s)
    (hst : s.st = .hsHigh) : Invariants (enter .ack1 (lineDir .sense s)) := by
  have hbitn : s.bitn = 0 := hi.bitn.1 (.inr (.inl hst))
  exact invariants_of_busy nofun rfl (by simp [InvBitn, hbitn]) hi.sr
    (invCnt_of_cnt_eq_zero hw rfl) (hi.blank (by simp [hst]))

/-! ### A wait that completes -/

@[simp] theorem waitThen_pad (o : SeqOp) (s : State) : (waitThen o s).pad = s.pad := by
  cases o <;> rfl

theorem waitThen_blank (o : SeqOp) : (waitThen o s).Blank ↔ s.Blank := by
  cases o <;> rfl

theorem pad_of_wait {o : SeqOp} {v : Level} (hw : waitLevel o = some v) : o.pad = .sense := by
  cases o with
  | ack1 | ack2 | ack3 | bitLow | bitHigh => rfl
  | idle | hsLow | hsHigh | check => cases hw

/-- The operation after a wait finds the released pad too. -/
theorem pad_waitThen_st {o : SeqOp} {v : Level} (hw : waitLevel o = some v) (s : State) :
    (waitThen o s).st.pad = .sense := by
  cases o with
  | ack1 | ack2 | ack3 | bitLow => rfl
  | bitHigh => simp only [waitThen, completeBit_st]; split <;> rfl
  | idle | hsLow | hsHigh | check => cases hw

/-- One more bit in `SR` is one more position that need not be zero (43_bit_decode.md R143). -/
theorem shiftIn_lt {v : FrameWord} {n : Nat} (hv : v.toNat < 2 ^ n) (b : Bool) :
    (shiftIn v b).toNat < 2 ^ (n + 1) := by
  have hb : b.toNat < 2 := Bool.toNat_lt b
  calc (shiftIn v b).toNat = (2 * v.toNat + b.toNat) % 2 ^ 40 := shiftIn_toNat v b
    _ ≤ 2 * v.toNat + b.toNat := Nat.mod_le _ _
    _ < 2 ^ (n + 1) := by rw [Nat.pow_succ]; omega

/-- Items 4 and 5 after a wait: only BIT_HIGH counts and shifts. -/
theorem invBitn_and_invSr_waitThen (hi : Invariants s) {v : Level}
    (hw : waitLevel s.st = some v) :
    InvBitn (waitThen s.st s) ∧ InvSr (waitThen s.st s) := by
  obtain ⟨hzero, hbits, -⟩ := hi.bitn
  have hsr := hi.sr
  cases hst : s.st with
  | ack1 | ack2 =>
    have hbitn : s.bitn = 0 := hzero (by simp [hst])
    exact ⟨by simp [waitThen, InvBitn, hbitn], hsr⟩
  | ack3 =>
    have hbitn : s.bitn = 0 := hzero (by simp [hst])
    exact ⟨by simp [waitThen, InvBitn], by rw [InvSr, hbitn] at hsr; exact hsr⟩
  | bitLow =>
    have hbitn : s.bitn ≤ 39 := hbits (by simp [hst])
    exact ⟨by simp [waitThen, InvBitn, hbitn]; omega, hsr⟩
  | bitHigh =>
    have hbitn : s.bitn ≤ 39 := hbits (by simp [hst])
    refine ⟨?_, shiftIn_lt hsr s.bit⟩
    by_cases hlast : s.bitn + 1 = 40
    · simp [waitThen, InvBitn, Config.nBits, hlast]
    · simp [waitThen, InvBitn, Config.nBits, hlast]
      omega
  | idle | hsLow | hsHigh | check => rw [hst] at hw; cases hw

theorem invariants_waitThen (hwf : s.params.wellFormed = true) (hi : Invariants s) {v : Level}
    (hw : waitLevel s.st = some v) : Invariants (waitThen s.st s) := by
  obtain ⟨hbitn, hsr⟩ := invBitn_and_invSr_waitThen hi hw
  exact invariants_of_busy (waitThen_st hw s).2
    (by rw [waitThen_pad, hi.pad, pad_of_wait hw, pad_waitThen_st hw]) hbitn hsr
    (invCnt_of_cnt_eq_zero (by simpa using hwf) (waitThen_cnt hw s))
    ((waitThen_blank _).mpr (hi.blank (not_idle_of_wait hw)))

/-- A wait that polls has not reached its ceiling yet. -/
theorem invCnt_countTick_of_wait {v : Level} (hw : waitLevel s.st = some v)
    (he : s.el ≤ s.timeoutTicks) : InvCnt (countTick s) := by
  cases hst : s.st with
  | ack1 | ack2 | ack3 | bitLow | bitHigh => simpa [InvCnt, State.inWait, hst] using he
  | idle | hsLow | hsHigh | check => rw [hst] at hw; cases hw

/-! ### Every edge -/

theorem Edge.invariants (h : Edge s t) (hw : s.params.wellFormed = true) (hi : Invariants s) :
    Invariants t := by
  obtain ⟨hlow, hhigh, -, -⟩ := hi.cnt
  cases h with
  | noCommand hst hs => exact hi
  | accept hst hs hf => exact invariants_acceptRead hw hf
  | fault hc hf => exact invariants_raise .driverFault s
  | holdLow hst hc =>
    have hlt : s.el < s.hsLowTicks := Nat.lt_of_le_of_ne (hlow hst) hc
    exact invariants_countTick hi (by simp [hst]) (by simpa [InvCnt, State.inWait, hst] using hlt)
  | driveHigh hst hc hf => exact invariants_driveHigh hw hi hst
  | holdHigh hst hc =>
    have hlt : s.el < s.hsHighTicks := Nat.lt_of_le_of_ne (hhigh hst) hc
    exact invariants_countTick hi (by simp [hst]) (by simpa [InvCnt, State.inWait, hst] using hlt)
  | release hst hc hf => exact invariants_release hw hi hst
  | poll hw hf hl he =>
    exact invariants_countTick hi (not_idle_of_wait hw) (invCnt_countTick_of_wait hw he)
  | expire hw hf hl he => exact invariants_raise .timeout s
  | complete hwait hf hl => exact invariants_waitThen hw hi hwait
  | deliver hst hf hsum => exact invariants_exitOk s
  | mismatch hst hf hsum => exact invariants_raise .checksumMismatch s

end Sys2Proof.Machine

open Sys2Proof Sys2Proof.Machine

/-- Settles O2: the reset state is what a reset edge leaves, and the defaults (log 4) are in their
ranges. -/
theorem invariantAtReset : Obligations.InvariantAtReset :=
  ⟨invariants_resetEdge State.reset, by decide⟩

/-- Settles O27: a reset edge brings the invariants about, and `Edge.invariants` keeps them; time
moving on changes no register. -/
theorem invariantKeptByEveryStep : Obligations.InvariantKeptByEveryStep := by
  intro s u hw hi h
  have hparams : u.params = s.params := (stepKeepsParametersAndTakesOneInput s u h).1
  refine ⟨?_, hparams ▸ hw⟩
  rcases step_edge h with ⟨-, rfl⟩ | ⟨-, t, he, rfl⟩
  · exact invariants_resetEdge s
  · exact he.invariants hw hi

end

