-- ==== Sys2Proof/Proofs/Outcome.lean ====
section
/-! SUPPORT. Where an edge leads and what it shows: the operation that follows (10_state.md R29),
the cause of an outcome (60_exceptions.md section 1), and how long a result stands and how far it
reaches (60_exceptions.md section 2, 70_reset_and_hazards.md section 3). -/

namespace Sys2Proof.Machine

variable {s t u : State}

/-! ### The operation that follows -/

/-- The five rows of the table that are waits. -/
theorem nextOp_of_wait (hi : Invariants s) {v : Level} (hw : waitLevel s.st = some v) :
    s.nextOp = s.afterPoll v (waitThen s.st s).st := by
  cases hst : s.st with
  | ack1 | ack2 | ack3 | bitLow => rw [hst] at hw; cases hw; rw [State.nextOp, hst]; rfl
  | bitHigh =>
    have hbitn : s.bitn ≤ 39 := hi.bitn.2.1 (.inr hst)
    have hlast : s.bitn + 1 = 40 ↔ ¬ s.bitn + 1 < 40 := by omega
    rw [hst] at hw
    cases hw
    simp only [State.nextOp, hst, waitThen, completeBit_st, Config.nBits, hlast, ite_not]
  | idle | hsLow | hsHigh | check => rw [hst] at hw; cases hw

theorem exists_waitLevel_of_inWait (hw : s.inWait) : ∃ v, waitLevel s.st = some v := by
  rcases hw with h | h | h | h | h <;> rw [h] <;> exact ⟨_, rfl⟩

theorem nextOp_of_faulted (hi : Invariants s) (hc : s.consultsFault) (hf : s.faulted = true) :
    s.nextOp = .idle := by
  rcases hc with ⟨hst, hs⟩ | ⟨hst, he⟩ | ⟨hst, he⟩ | hw | hst
  · simp [State.nextOp, hst, hf]
  · simp [State.nextOp, hst, he, hf]
  · simp [State.nextOp, hst, he, hf]
  · obtain ⟨v, hv⟩ := exists_waitLevel_of_inWait hw
    simp [nextOp_of_wait hi hv, State.afterPoll, hf]
  · simp [State.nextOp, hst]

theorem Edge.st_eq_nextOp (h : Edge s t) (hi : Invariants s) : t.st = s.nextOp := by
  cases h with
  | noCommand hst hs => simp [State.nextOp, hst, hs]
  | accept hst hs hf => simp [acceptRead_of_not_faulted hf, State.nextOp, hst, hs, hf]
  | fault hc hf => simp [nextOp_of_faulted hi hc hf]
  | holdLow hst hc => rw [State.el] at hc; simp [State.nextOp, hst, hc]
  | driveHigh hst hc hf => rw [State.el] at hc; simp [State.nextOp, hst, hc, hf]
  | holdHigh hst hc => rw [State.el] at hc; simp [State.nextOp, hst, hc]
  | release hst hc hf => rw [State.el] at hc; simp [State.nextOp, hst, hc, hf]
  | poll hw hf hl he =>
    have hlt : ¬ s.timeoutTicks ≤ s.cnt := Nat.not_le.mpr he
    simp [nextOp_of_wait hi hw, State.afterPoll, hf, hl, hlt]
  | expire hw hf hl he =>
    have hge : s.timeoutTicks ≤ s.cnt := Nat.lt_succ_iff.mp he
    simp [nextOp_of_wait hi hw, State.afterPoll, hf, hl, hge]
  | complete hw hf hl => simp [nextOp_of_wait hi hw, State.afterPoll, hf, hl]
  | deliver hst hf hsum => simp [State.nextOp, hst]
  | mismatch hst hf hsum => simp [State.nextOp, hst]

/-! ### The cause of an outcome -/

/-- The four ways in which an edge can show a result that was not there before. -/
theorem Edge.outcome_cases (h : Edge s t) (hdone : s.done = false) (ht : t.done = true) :
    (s.faulted = true ∧ s.consultsFault ∧ t.code = .driverFault) ∨
    (s.faulted = false ∧ waitLevel s.st = some s.lineRead ∧ s.timeoutTicks < s.el ∧
      t.code = .timeout) ∨
    (s.faulted = false ∧ s.st = .check ∧ ¬ s.sumOk = true ∧ t.code = .checksumMismatch) ∨
    (s.faulted = false ∧ s.st = .check ∧ s.sumOk = true ∧ t.code = .ok) := by
  cases h with
  | fault hc hf => exact .inl ⟨hf, hc, rfl⟩
  | expire hw hf hl he => exact .inr (.inl ⟨hf, hl ▸ hw, he, rfl⟩)
  | mismatch hst hf hsum => exact .inr (.inr (.inl ⟨hf, hst, hsum, rfl⟩))
  | deliver hst hf hsum => exact .inr (.inr (.inr ⟨hf, hst, hsum, rfl⟩))
  | accept hst hs hf => simp [acceptRead_of_not_faulted hf] at ht
  | noCommand | holdLow | driveHigh | holdHigh | release | poll | complete =>
    simp [hdone] at ht

/-! ### An earlier result -/

/-- `s` with another content of the result registers. -/
abbrev State.withResult (s : State) (d : Bool) (c : ResCode) (h t : Byte) : State :=
  { s with done := d, code := c, hum := h, temp := t }

theorem waitThen_withResult (o : SeqOp) (s : State) (d : Bool) (c : ResCode) (h t : Byte) :
    waitThen o (s.withResult d c h t) = (waitThen o s).withResult d c h t := by
  cases o <;> rfl

/-- An edge that starts with another result keeps that result instead, or overwrites it alike. -/
theorem Edge.withResult (he : Edge s u) (d : Bool) (c : ResCode) (h t : Byte) :
    Edge (s.withResult d c h t) u ∨ Edge (s.withResult d c h t) (u.withResult d c h t) := by
  cases he with
  | noCommand hst hs => exact .inr (.noCommand hst hs)
  | accept hst hs hf => exact .inl (.accept (s := s.withResult d c h t) hst hs hf)
  | fault hc hf => exact .inl (.fault (s := s.withResult d c h t) hc hf)
  | holdLow hst hc => exact .inr (.holdLow (s := s.withResult d c h t) hst hc)
  | driveHigh hst hc hf => exact .inr (.driveHigh (s := s.withResult d c h t) hst hc hf)
  | holdHigh hst hc => exact .inr (.holdHigh (s := s.withResult d c h t) hst hc)
  | release hst hc hf => exact .inr (.release (s := s.withResult d c h t) hst hc hf)
  | poll hw hf hl he => exact .inr (.poll (s := s.withResult d c h t) hw hf hl he)
  | expire hw hf hl he => exact .inl (.expire (s := s.withResult d c h t) hw hf hl he)
  | complete hw hf hl =>
    refine .inr ?_
    rw [← waitThen_withResult]
    exact .complete (s := s.withResult d c h t) hw hf hl
  | deliver hst hf hsum => exact .inl (.deliver (s := s.withResult d c h t) hst hf hsum)
  | mismatch hst hf hsum => exact .inl (.mismatch (s := s.withResult d c h t) hst hf hsum)

end Sys2Proof.Machine

open Sys2Proof Sys2Proof.Machine

/-- Settles O25: `Edge.st_eq_nextOp`, row by row of the table of 10_state.md R29. -/
theorem operationsFollowTheGraph : Obligations.OperationsFollowTheGraph := by
  intro s u _ hi hr h
  rcases step_edge h with ⟨hr', -⟩ | ⟨-, t, he, rfl⟩
  · cases hr.symm.trans hr'
  · exact he.st_eq_nextOp hi

/-- Settles O21: the four ways of `Edge.outcome_cases` have the four codes; in a wait the invariant
on `CNT` makes the first edge beyond the ceiling the one with `CNT = T`. -/
theorem outcomesHaveTheirCauses : Obligations.OutcomesHaveTheirCauses := by
  intro s u _ hi hr hdone h hu
  rcases step_edge h with ⟨hr', -⟩ | ⟨-, t, he, rfl⟩
  · cases hr.symm.trans hr'
  obtain ⟨-, -, hceiling, -⟩ := hi.cnt
  rw [tick_done] at hu
  simp only [tick_code, ne_eq, ← sumOk_iff]
  rcases he.outcome_cases hdone hu with ⟨hf, hc, hcode⟩ | ⟨hf, hw, hel, hcode⟩ |
    ⟨hf, hst, hsum, hcode⟩ | ⟨hf, hst, hsum, hcode⟩
  · simp [hcode, hf, hc]
  · have hwait : s.inWait := inWait_of_waitLevel hw
    have hcnt : s.cnt = s.timeoutTicks := Nat.le_antisymm (hceiling hwait) (Nat.lt_succ_iff.mp hel)
    simp [hcode, hf, hwait, hcnt, hw]
  · simp [hcode, hf, hst, hsum]
  · simp [hcode, hf, hst, hsum]

/-- Settles O29: with a result the engine is idle (10_state.md R32 item 7), so the edge is one
without a command, an acceptance or a reset. -/
theorem resultStandsUntilTheNextRead : Obligations.ResultStandsUntilTheNextRead := by
  intro s u ⟨_, _, _, _, _, _, hbusy, _⟩ hdone h
  have hst : s.st = .idle := by
    by_contra hne
    simp [hbusy hne] at hdone
  refine ⟨fun hr hs => ?_, fun hr hs hf => ?_, fun hr => ?_⟩
  · cases (step_of_no_command hst hr hs).symm.trans h
    exact ⟨rfl, rfl⟩
  · cases (step_of_start hst hr hs).symm.trans h
    rw [acceptRead_of_not_faulted hf]
    exact ⟨rfl, rfl, rfl, rfl, rfl⟩
  · cases (step_of_rst hr).symm.trans h
    exact ⟨rfl, rfl, rfl, rfl⟩

/-- Settles O28: a reset edge, an acceptance and a refusal overwrite the result registers alike;
every other edge keeps them and does not read them. -/
theorem oldResultInfluencesNoRead : Obligations.OldResultInfluencesNoRead := by
  intro s u u' d c h t hu hu'
  refine ⟨?agree, fun hr hst hs => ?equal⟩
  case agree =>
    rcases step_edge hu with ⟨hr, rfl⟩ | ⟨hr, v, he, rfl⟩
    · cases (step_of_rst (s := s.withResult d c h t) hr).symm.trans hu'
      simp
    · rcases he.withResult d c h t with he' | he'
      · cases (he'.step_eq hr).symm.trans hu'
        simp
      · cases (he'.step_eq hr).symm.trans hu'
        simp
  case equal =>
    cases (step_of_start hst hr hs).symm.trans hu
    cases (step_of_start (s := s.withResult d c h t) hst hr hs).symm.trans hu'
    rfl

end

