-- ==== Sys2Proof/Proofs/ReadEnds.lean ====
section
/-! SUPPORT. Every read ends (70_reset_and_hazards.md R214): the ticks that a read can still take,
which every edge of it lowers. -/

namespace Sys2Proof.Machine

variable {s t : State}

/-! ### The ticks that are left -/

/-- The waits still to come after the operation in progress, `bitn` bits having been received. -/
def waitsAfter (bitn : Nat) : SeqOp → Nat
  | .idle | .check => 0
  | .hsLow | .hsHigh => 83
  | .ack1 => 82
  | .ack2 => 81
  | .ack3 => 80
  | .bitLow => 79 - 2 * bitn
  | .bitHigh => 78 - 2 * bitn

/-- The edges that the operation in progress can still take, with those of the sleep after it and
the one of CHECK. -/
def State.ticksHere (s : State) : Nat :=
  match s.st with
  | .idle => 0
  | .hsLow => s.hsLowTicks - s.cnt + s.hsHighTicks + 1
  | .hsHigh => s.hsHighTicks - s.cnt + 1
  | .ack1 | .ack2 | .ack3 | .bitLow | .bitHigh => s.timeoutTicks + 1 - s.cnt + 1
  | .check => 1

/-- An upper bound on the edges that a read in progress still takes: besides `ticksHere`, `T + 1`
for each wait to come. -/
def State.ticksLeft (s : State) : Nat :=
  s.ticksHere + waitsAfter s.bitn s.st * (s.timeoutTicks + 1)

theorem ticksLeft_of_idle (hst : s.st = .idle) : s.ticksLeft = 0 := by
  simp [State.ticksLeft, State.ticksHere, waitsAfter, hst]

theorem ticksLeft_of_hsLow (hst : s.st = .hsLow) : s.ticksLeft =
    s.hsLowTicks - s.cnt + s.hsHighTicks + 1 + 83 * (s.timeoutTicks + 1) := by
  simp [State.ticksLeft, State.ticksHere, waitsAfter, hst]

theorem ticksLeft_of_hsHigh (hst : s.st = .hsHigh) :
    s.ticksLeft = s.hsHighTicks - s.cnt + 1 + 83 * (s.timeoutTicks + 1) := by
  simp [State.ticksLeft, State.ticksHere, waitsAfter, hst]

/-- In a wait: the rest of this one, CHECK, and the whole of the waits to come. -/
theorem ticksLeft_of_wait {v : Level} (hw : waitLevel s.st = some v) : s.ticksLeft =
    s.timeoutTicks + 1 - s.cnt + 1 + waitsAfter s.bitn s.st * (s.timeoutTicks + 1) := by
  rw [State.ticksLeft]
  cases hst : s.st with
  | ack1 | ack2 | ack3 | bitLow | bitHigh => simp [State.ticksHere, hst]
  | idle | hsLow | hsHigh | check => rw [hst] at hw; cases hw

theorem ticksLeft_of_check (hst : s.st = .check) : s.ticksLeft = 1 := by
  simp [State.ticksLeft, State.ticksHere, waitsAfter, hst]

theorem ticksLeft_pos (hbusy : s.st ≠ .idle) : 0 < s.ticksLeft := by
  refine Nat.add_pos_left ?_ _
  cases hst : s.st with
  | idle => exact absurd hst hbusy
  | _ => simp [State.ticksHere, hst]

/-- The bound of R214 is what is left at most. -/
theorem ticksLeft_le_readBound (s : State) : s.ticksLeft ≤ s.readBound := by
  have hwaits : waitsAfter s.bitn s.st ≤ 83 ∧ s.ticksHere ≤ s.hsLowTicks + s.hsHighTicks + 1 ∨
      waitsAfter s.bitn s.st ≤ 82 ∧ s.ticksHere ≤ s.timeoutTicks + 1 + 1 := by
    cases hst : s.st <;> simp [waitsAfter, State.ticksHere, hst] <;> omega
  rw [State.ticksLeft, State.readBound]
  rcases hwaits with ⟨hw, hh⟩ | ⟨hw, hh⟩ <;>
    have := Nat.mul_le_mul_right (s.timeoutTicks + 1) hw <;> omega

/-! ### Every edge lowers it -/

/-- A wait that completes is followed by one of the waits to come, or by CHECK after the last. -/
theorem waitsAfter_waitThen (hi : Invariants s) {v : Level} (hw : waitLevel s.st = some v) :
    ((waitThen s.st s).st = .check ∧ waitsAfter s.bitn s.st = 0) ∨
    ((∃ v', waitLevel (waitThen s.st s).st = some v') ∧
      waitsAfter s.bitn s.st = waitsAfter (waitThen s.st s).bitn (waitThen s.st s).st + 1) := by
  obtain ⟨-, hbits, -⟩ := hi.bitn
  cases hst : s.st with
  | ack1 | ack2 | ack3 => exact .inr ⟨⟨_, rfl⟩, rfl⟩
  | bitLow =>
    have hbitn := hbits (.inl hst)
    exact .inr ⟨⟨_, rfl⟩, by simp only [waitThen, enter_st, enter_bitn, waitsAfter]; omega⟩
  | bitHigh =>
    have hbitn := hbits (.inr hst)
    by_cases hlast : s.bitn + 1 = 40
    · exact .inl ⟨if_pos hlast, by simp only [waitsAfter]; omega⟩
    · have hnext : (waitThen .bitHigh s).st = .bitLow := if_neg hlast
      rw [hnext]
      exact .inr ⟨⟨_, rfl⟩, by simp only [waitThen, completeBit_bitn, waitsAfter]; omega⟩
  | idle | hsLow | hsHigh | check => rw [hst] at hw; cases hw

@[simp] theorem waitThen_timeoutTicks (o : SeqOp) (s : State) :
    (waitThen o s).timeoutTicks = s.timeoutTicks := by
  cases o <;> rfl

/-- What a wait leaves when it completes, whatever the ticks it took. -/
theorem ticksLeft_waitThen (hi : Invariants s) {v : Level} (hw : waitLevel s.st = some v) :
    (waitThen s.st s).ticksLeft = 1 + waitsAfter s.bitn s.st * (s.timeoutTicks + 1) := by
  rcases waitsAfter_waitThen hi hw with ⟨hcheck, hlast⟩ | ⟨⟨v', hw'⟩, hnext⟩
  · rw [ticksLeft_of_check hcheck, hlast, Nat.zero_mul]
  · rw [ticksLeft_of_wait hw', waitThen_cnt hw, waitThen_timeoutTicks, hnext, Nat.succ_mul]
    omega

theorem Edge.ticksLeft_lt (h : Edge s t) (hi : Invariants s) (hbusy : s.st ≠ .idle) :
    t.ticksLeft < s.ticksLeft := by
  have hpos := ticksLeft_pos hbusy
  obtain ⟨hlow, hhigh, hceiling, -⟩ := hi.cnt
  cases h with
  | noCommand hst | accept hst => exact absurd hst hbusy
  | fault | expire | deliver | mismatch => rwa [ticksLeft_of_idle rfl]
  | holdLow hst hc =>
    have hcnt := hlow hst
    have ht : (countTick s).ticksLeft =
        s.hsLowTicks - (s.cnt + 1) + s.hsHighTicks + 1 + 83 * (s.timeoutTicks + 1) :=
      ticksLeft_of_hsLow (s := countTick s) hst
    rw [ticksLeft_of_hsLow hst, ht]
    omega
  | driveHigh hst hc hf =>
    have hcnt := hlow hst
    have ht : (enter .hsHigh (lineLevel .high s)).ticksLeft =
        s.hsHighTicks + 1 + 83 * (s.timeoutTicks + 1) := ticksLeft_of_hsHigh rfl
    rw [ticksLeft_of_hsLow hst, ht]
    omega
  | holdHigh hst hc =>
    have hcnt := hhigh hst
    have ht : (countTick s).ticksLeft =
        s.hsHighTicks - (s.cnt + 1) + 1 + 83 * (s.timeoutTicks + 1) :=
      ticksLeft_of_hsHigh (s := countTick s) hst
    rw [ticksLeft_of_hsHigh hst, ht]
    omega
  | release hst hc hf =>
    have hcnt := hhigh hst
    have ht : (enter .ack1 (lineDir .sense s)).ticksLeft =
        s.timeoutTicks + 1 + 1 + 82 * (s.timeoutTicks + 1) := ticksLeft_of_wait rfl
    rw [ticksLeft_of_hsHigh hst, ht]
    omega
  | poll hw hf hl he =>
    have hcnt := hceiling (inWait_of_waitLevel hw)
    have ht : (countTick s).ticksLeft = s.timeoutTicks + 1 - (s.cnt + 1) + 1 +
        waitsAfter s.bitn s.st * (s.timeoutTicks + 1) := ticksLeft_of_wait (s := countTick s) hw
    rw [ticksLeft_of_wait hw, ht]
    omega
  | complete hw hf hl =>
    have hcnt := hceiling (inWait_of_waitLevel hw)
    rw [ticksLeft_of_wait hw, ticksLeft_waitThen hi hw]
    omega

/-- A step lowers it too: a reset edge ends the read, and time moving on changes nothing here. -/
theorem ticksLeft_lt_of_step (h : step s = .next t) (hi : Invariants s) (hbusy : s.st ≠ .idle) :
    t.ticksLeft < s.ticksLeft := by
  rcases step_edge h with ⟨-, rfl⟩ | ⟨-, u, he, rfl⟩
  · rw [ticksLeft_of_idle rfl]
    exact ticksLeft_pos hbusy
  · exact he.ticksLeft_lt hi hbusy

/-! ### The read ends -/

/-- The step function is total (10_state.md R30). -/
theorem exists_step (s : State) : ∃ t, step s = .next t := by
  obtain ⟨t, -, he⟩ := exists_edge s
  cases hr : s.pins.rst with
  | true => exact ⟨_, step_of_rst hr⟩
  | false => exact ⟨_, he.step_eq hr⟩

/-- An edge of a read after which the engine is idle leaves a result, unless it was a reset. -/
theorem Edge.done_of_idle (h : Edge s t) (hbusy : s.st ≠ .idle) (ht : t.st = .idle) :
    t.done = true := by
  cases h with
  | noCommand hst | accept hst => exact absurd hst hbusy
  | fault | expire | deliver | mismatch => rfl
  | holdLow hst | holdHigh hst => exact absurd ht hbusy
  | driveHigh | release => cases ht
  | poll hw => exact absurd ht hbusy
  | complete hw => exact absurd ht (waitThen_st hw s).2

/-- From a busy state: `k` edges later the engine is idle for the first time, with a result if no
reset came. -/
def EndsAt (s : State) (k : Nat) : Prop :=
  ∃ t, run k s = .next t ∧ t.st = .idle ∧
    (∀ j, j < k → ∃ u, run j s = .next u ∧ u.st ≠ .idle) ∧
    ((∀ j u, j < k → run j s = .next u → u.pins.rst = false) → t.done = true)

theorem endsAt_one (hbusy : s.st ≠ .idle) (h : step s = .next t) (ht : t.st = .idle) :
    EndsAt s 1 := by
  have hrun : ∀ j, j < 1 → run j s = .next s := by
    intro j hj
    obtain rfl : j = 0 := by omega
    rfl
  refine ⟨t, run_succ h, ht, fun j hj => ⟨s, hrun j hj, hbusy⟩, fun hr => ?_⟩
  rcases step_edge h with ⟨hr', -⟩ | ⟨-, u, he, rfl⟩
  · cases (hr 0 s (by decide) rfl).symm.trans hr'
  · exact he.done_of_idle hbusy ht

theorem endsAt_succ {k : Nat} (hbusy : s.st ≠ .idle) (h : step s = .next t) (ht : EndsAt t k) :
    EndsAt s (k + 1) := by
  obtain ⟨u, hrun, hu, hbefore, hdone⟩ := ht
  refine ⟨u, (run_succ h).trans hrun, hu, fun j hj => ?_, fun hr => hdone fun j v hj hv => ?_⟩
  · cases j with
    | zero => exact ⟨s, rfl, hbusy⟩
    | succ j => rw [run_succ h]; exact hbefore j (by omega)
  · exact hr (j + 1) v (by omega) ((run_succ h).trans hv)

/-- By induction on the ticks that are left, which every edge lowers until the engine is idle. -/
theorem exists_endsAt {n : Nat} (hw : s.params.wellFormed = true) (hi : Invariants s)
    (hbusy : s.st ≠ .idle) (hn : s.ticksLeft ≤ n) : ∃ k, 1 ≤ k ∧ k ≤ n ∧ EndsAt s k := by
  induction n generalizing s with
  | zero => exact absurd hn (Nat.not_le.mpr (ticksLeft_pos hbusy))
  | succ n ih =>
    obtain ⟨t, ht⟩ := exists_step s
    by_cases hidle : t.st = .idle
    · exact ⟨1, le_rfl, by omega, endsAt_one hbusy ht hidle⟩
    · obtain ⟨hit, hwt⟩ := invariantKeptByEveryStep s t hw hi ht
      have hlt : t.ticksLeft < s.ticksLeft := ticksLeft_lt_of_step ht hi hbusy
      obtain ⟨k, hk1, hkn, hends⟩ := ih hwt hit hidle (by omega)
      exact ⟨k + 1, by omega, by omega, endsAt_succ hbusy ht hends⟩

end Sys2Proof.Machine

open Sys2Proof Sys2Proof.Machine

/-- Settles O31: the ticks left are at most the bound of R214. -/
theorem everyReadEndsWithinTheBound : Obligations.EveryReadEndsWithinTheBound := by
  intro s hw hi hbusy
  obtain ⟨k, hk1, hk, t, hrun, hends⟩ := exists_endsAt hw hi hbusy (ticksLeft_le_readBound s)
  exact ⟨k, t, hk1, hk, hrun, hends⟩

end

