-- ==== Sys2Proof/Proofs/Frame.lean ====
section
/-! SUPPORT. From bits to the frame (43_bit_decode.md R142 to R144): the shift bit by bit, a
sequence of shifts as a number in base 2, and the forty symbols of a frame. -/

namespace Sys2Proof.Machine

variable {s : State}

/-! ### One shift, bit by bit (43_bit_decode.md R143) -/

theorem getLsbD_zero_shiftIn (v : FrameWord) (b : Bool) : (shiftIn v b).getLsbD 0 = b := by
  cases b <;> simp [shiftIn]

theorem getLsbD_succ_shiftIn (v : FrameWord) (b : Bool) {k : Nat} (hk : k < 39) :
    (shiftIn v b).getLsbD (k + 1) = v.getLsbD k := by
  have hlt : k + 1 < 40 := by omega
  have hv : v.getLsbD k = v[k] := BitVec.getLsbD_eq_getElem (by omega)
  cases b <;> simp [shiftIn, hlt, hv]

/-- A measured high of `cnt + 1` ticks is the symbol that the threshold makes of it (R142). -/
theorem exec_bitHigh_of_end (hf : s.faulted = false) (hl : s.lineRead = .low) :
    exec .bitHigh s = .next (completeBit s.bit s) :=
  congrArg Host.Outcome.next (waitWhile_of_differs hf (by simp [hl]))

/-! ### Several shifts -/

/-- Bits in order of arrival as a number in base 2, after a number `n`. -/
def bitsValue (n : Nat) (bs : List Bool) : Nat := bs.foldl (fun m b => 2 * m + b.toNat) n

theorem bitsValue_append (n : Nat) (bs cs : List Bool) :
    bitsValue n (bs ++ cs) = bitsValue (bitsValue n bs) cs :=
  List.foldl_append

/-- What a sequence of shifts leaves in `SR`: what overflows forty bits is dropped. -/
theorem foldl_shiftIn_toNat (bs : List Bool) {v : FrameWord} {n : Nat}
    (hv : v.toNat = n % 2 ^ 40) : (bs.foldl shiftIn v).toNat = bitsValue n bs % 2 ^ 40 := by
  induction bs generalizing v n with
  | nil => exact hv
  | cons b bs ih =>
    have hvb : (shiftIn v b).toNat = (2 * n + b.toNat) % 2 ^ 40 := by rw [shiftIn_toNat, hv]; omega
    exact ih hvb

/-- The bits of `x` below position `w`, most significant first, are `x` itself below `2 ^ w`. -/
theorem bitsValue_testBit (n x w : Nat) :
    bitsValue n ((List.range w).reverse.map x.testBit) = n * 2 ^ w + x % 2 ^ w := by
  induction w generalizing n with
  | zero => simp [bitsValue, Nat.mod_one]
  | succ w ih =>
    rw [List.range_succ, List.reverse_append, List.reverse_singleton, List.singleton_append,
      List.map_cons]
    change bitsValue (2 * n + (x.testBit w).toNat) _ = _
    rw [ih, Nat.mod_pow_succ, Nat.toNat_testBit, Nat.pow_succ]
    ring

/-- Bits given by their number in order of arrival, as the sum of 43_bit_decode.md R146. -/
theorem bitsValue_range (f : Nat → Bool) (n : Nat) :
    bitsValue 0 ((List.range n).map f) =
      ∑ k ∈ Finset.range n, (f k).toNat * 2 ^ (n - 1 - k) := by
  induction n with
  | zero => rfl
  | succ n ih =>
    have hshift : ∀ k ∈ Finset.range n,
        (f k).toNat * 2 ^ (n + 1 - 1 - k) = 2 * ((f k).toNat * 2 ^ (n - 1 - k)) := by
      intro k hk
      have hk : k < n := Finset.mem_range.mp hk
      have he : n + 1 - 1 - k = (n - 1 - k) + 1 := by omega
      rw [he, Nat.pow_succ]
      ring
    rw [List.range_succ, List.map_append, bitsValue_append, ih, Finset.sum_range_succ,
      Finset.sum_congr rfl hshift, ← Finset.mul_sum]
    simp [bitsValue]

/-- `k` bits after `n` are a number below `(n + 1) * 2 ^ k`. -/
theorem bitsValue_lt (n : Nat) (bs : List Bool) : bitsValue n bs < (n + 1) * 2 ^ bs.length := by
  induction bs generalizing n with
  | nil => simp [bitsValue]
  | cons b bs ih =>
    have hb : b.toNat < 2 := Bool.toNat_lt b
    calc bitsValue n (b :: bs) < (2 * n + b.toNat + 1) * 2 ^ bs.length := ih _
      _ ≤ ((n + 1) * 2) * 2 ^ bs.length := Nat.mul_le_mul_right _ (by omega)
      _ = (n + 1) * 2 ^ (b :: bs).length := by rw [List.length_cons, Nat.pow_succ]; ring

/-- The completing edges of BIT_HIGH for a sequence of bits, one after another. -/
def completeBits (bs : List Bool) (s : State) : State := bs.foldl (fun u b => completeBit b u) s

/-- What at least one completing edge leaves. -/
theorem completeBits_cons (b : Bool) (bs : List Bool) (s : State) :
    completeBits (b :: bs) s = { s with
      sr := (b :: bs).foldl shiftIn s.sr
      bitn := s.bitn + (bs.length + 1)
      cnt := 0
      st := if s.bitn + (bs.length + 1) = 40 then .check else .bitLow } := by
  induction bs generalizing b s with
  | nil => rfl
  | cons c cs ih =>
    have hlen : s.bitn + 1 + (cs.length + 1) = s.bitn + (cs.length + 1 + 1) := by omega
    change completeBits (c :: cs) (completeBit b s) = _
    rw [ih, completeBit_bitn, hlen]
    rfl

/-! ### The forty symbols of a frame -/

/-- The symbol that carries a bit (30_encoding.md R82). -/
def symbol (b : Bool) : Instr := if b then .bit1 else .bit0

theorem exec_symbol (b : Bool) (s : State) : exec (symbol b) s = .next (completeBit b s) := by
  cases b <;> rfl

theorem execAll_symbols (bs : List Bool) (s : State) :
    execAll (bs.map symbol) s = .next (completeBits bs s) := by
  induction bs generalizing s with
  | nil => rfl
  | cons b bs ih => simp [execAll, exec_symbol, ih, completeBits]

/-- The bits of a frame in order of arrival (20_memory.md R58). -/
def frameBits (h f t g c : Byte) : List Bool :=
  [h, f, t, g, c].flatMap fun b => (List.range 8).reverse.map b.toNat.testBit

theorem frameSymbols_eq_map (h f t g c : Byte) :
    frameSymbols h f t g c = (frameBits h f t g c).map symbol := rfl

/-- Whatever `SR` held is shifted out by forty bits. -/
theorem foldl_shiftIn_frameBits (v : FrameWord) (h f t g c : Byte) :
    (frameBits h f t g c).foldl shiftIn v = frameWord h f t g c := by
  have hh := h.isLt
  have hf := f.isLt
  have ht := t.isLt
  have hg := g.isLt
  have hc := c.isLt
  apply BitVec.eq_of_toNat_eq
  rw [foldl_shiftIn_toNat _ (Nat.mod_eq_of_lt v.isLt).symm, frameWord_toNat]
  simp only [frameBits, List.flatMap_cons, List.flatMap_nil, bitsValue_append, bitsValue_testBit]
  simp only [bitsValue, List.foldl_nil]
  omega

end Sys2Proof.Machine

open Sys2Proof Sys2Proof.Machine

/-- Settles O13: both rows are the completing edge with their bit, as is the edge that ends the high
(`exec_bitHigh_of_end`); the shifted word is `shiftIn`, bit by bit. -/
theorem symbolsShiftTheFrameRegister : Obligations.SymbolsShiftTheFrameRegister := by
  intro s i b hi
  have hexec : exec i s = .next (completeBit b s) := by
    rcases hi with ⟨rfl, rfl⟩ | ⟨rfl, rfl⟩ <;> rfl
  refine ⟨⟨shiftIn s.sr b, hexec, getLsbD_zero_shiftIn s.sr b,
    fun k hk => getLsbD_succ_shiftIn s.sr b hk⟩, fun hf hl hb => ?_⟩
  have hbit : s.bit = b := hb
  rw [exec_bitHigh_of_end hf hl, hbit, hexec]

/-- Settles O14: stream bit `k` is bit `7 - k % 8` of byte `k / 8`, which stands in the frame word
at `39 - k`. -/
theorem frameRowFillsTheFrameRegister : Obligations.FrameRowFillsTheFrameRegister := by
  intro s h f t g c
  refine ⟨frameWord h f t g c, rfl, frameWord_toNat h f t g c, fun k hk => ?_⟩
  have hpos : 39 - k = 32 - 8 * (k / 8) + (7 - k % 8) := by omega
  rw [hpos, ← getLsbD_frameByte _ _ (by omega), frameByte_frameWord h f t g c (by omega)]

/-- Settles O15: the forty symbols are forty completing edges, which from `BITN = 0` end in CHECK;
what they shift in is the frame by `foldl_shiftIn_frameBits`. -/
theorem fortySymbolsAreTheFrame : Obligations.FortySymbolsAreTheFrame := by
  intro s h f t g c hbitn
  have hcons : frameBits h f t g c =
      h.getLsbD 7 :: (frameBits h f t g c).tail := rfl
  rw [frameSymbols_eq_map, execAll_symbols, hcons, completeBits_cons, ← hcons,
    foldl_shiftIn_frameBits, hbitn]
  rfl

end

