-- ==== Sys2Proof/Proofs/DataPhase.lean ====
section
/-! SUPPORT. The data phase edge by edge (43_bit_decode.md R146): a wait measures how long its level
stays, two waits are a symbol, and forty symbols are the frame that the durations stand for. -/

namespace Sys2Proof.Machine

variable {s : State}

/-! ### The edges of one wait and of one symbol -/

/-- The same registers `k` edges later, with `ps` as the inputs to come. -/
def State.after (s : State) (k : Nat) (ps : List Pins) : State :=
  { s with pending := ps, edge := s.edge + k }

theorem State.after_after (s : State) (j k : Nat) (ps qs : List Pins) :
    (s.after j ps).after k qs = s.after (j + k) qs := by
  simp [State.after, Nat.add_assoc]

theorem waitThen_after (o : SeqOp) (s : State) (k : Nat) (ps : List Pins) :
    waitThen o (s.after k ps) = (waitThen o s).after k ps := by
  cases o <;> rfl

/-- A wait whose level stays for `n` samples and then changes measures `n + 1` ticks
(45_timed_wait.md R162). -/
theorem run_of_wait_measuring {o : SeqOp} {n : Nat} {v v' : Level} {rest : List Pins}
    (hst : s.st = o) (hw : waitLevel o = some v) (hcnt : s.cnt = 0)
    (hp : s.pending = List.replicate n (sample v) ++ sample v' :: rest) (hv : v' ≠ v)
    (hn : n ≤ s.timeoutTicks) :
    run (n + 1) s = .next ((waitThen o { s with cnt := n }).after (n + 1) rest) := by
  subst hst
  have hpolled : s.polled n = { s with cnt := n }.after n (sample v' :: rest) := by
    simp [State.polled, State.after, hcnt, hp]
  have hpoll : run n s = .next (s.polled n) := by
    have hrun := run_of_wait_polling (List.replicate n (sample v)) (sample v' :: rest) hw hp
      (fun p hmem => List.eq_of_mem_replicate hmem ▸ ⟨rfl, rfl, rfl⟩)
      (by rwa [List.length_replicate, hcnt, Nat.zero_add])
    rwa [List.length_replicate] at hrun
  rw [hpolled] at hpoll
  have hdiffers : ({ s with cnt := n }.after n (sample v' :: rest)).lineRead ≠ v := hv
  have hstep := step_of_wait_differs
    (s := { s with cnt := n }.after n (sample v' :: rest)) hw rfl rfl hdiffers
  rw [run_succ_of_run hpoll hstep]
  exact congrArg (fun u => Host.Outcome.next (tick u)) (waitThen_after _ _ _ _)

/-- The inputs listed are those to come. -/
theorem run_zero_after {ps : List Pins} (hp : s.pending = ps) : run 0 s = .next (s.after 0 ps) :=
  hp ▸ rfl

/-- A wait after `k` edges of a run. -/
theorem run_add_wait {o : SeqOp} {k n : Nat} {u : State} {v v' : Level} {rest : List Pins}
    (hrun : run k s =
      .next (u.after k (List.replicate n (sample v) ++ sample v' :: rest)))
    (hst : u.st = o) (hw : waitLevel o = some v) (hcnt : u.cnt = 0) (hv : v' ≠ v)
    (hn : n ≤ u.timeoutTicks) :
    run (k + (n + 1)) s =
      .next ((waitThen o { u with cnt := n }).after (k + (n + 1)) rest) := by
  have hwait := run_of_wait_measuring (rest := rest)
    (s := u.after k (List.replicate n (sample v) ++ sample v' :: rest)) hst hw hcnt rfl hv hn
  rw [run_add hrun, hwait, ← State.after_after _ k _ []]
  exact congrArg (fun t => Host.Outcome.next (t.after (n + 1) rest))
    (waitThen_after o { u with cnt := n } k _)

/-- The samples of a symbol, as the two waits take them. -/
theorem symbolSamples_succ_succ (a b : Nat) (rest : List Pins) :
    symbolSamples (a + 1) (b + 1) ++ rest = List.replicate a (sample .low) ++
      sample .high :: (List.replicate b (sample .high) ++ sample .low :: rest) := by
  simp [symbolSamples, List.replicate_succ]

/-- A symbol is one completing edge of BIT_HIGH, `l + d` ticks on: its low measures `l`, its high
`d`, and the low leaves no trace. -/
theorem run_of_symbol {l d : Nat} {rest : List Pins} (hst : s.st = .bitLow) (hcnt : s.cnt = 0)
    (hl : 1 ≤ l) (hlT : l ≤ s.timeoutTicks + 1) (hd : 1 ≤ d) (hdT : d ≤ s.timeoutTicks + 1)
    (hp : s.pending = symbolSamples l d ++ rest) :
    run (l + d) s =
      .next ((completeBit (decide (s.threshTicks < d)) s).after (l + d) rest) := by
  obtain ⟨a, rfl⟩ := Nat.exists_eq_add_of_le' hl
  obtain ⟨b, rfl⟩ := Nat.exists_eq_add_of_le' hd
  rw [symbolSamples_succ_succ] at hp
  have hlow := run_add_wait (run_zero_after hp) hst rfl hcnt nofun (Nat.le_of_succ_le_succ hlT)
  rw [Nat.zero_add] at hlow
  exact run_add_wait hlow rfl rfl rfl nofun (Nat.le_of_succ_le_succ hdT)

/-! ### The edges of the data phase -/

/-- The bit that symbol `k` carries (43_bit_decode.md R142). -/
def durationBit (thresh : Nat) (d : Nat → Nat) (k : Nat) : Bool := decide (thresh < d k)

theorem completeBits_after (bs : List Bool) (s : State) (k : Nat) (ps : List Pins) :
    completeBits bs (s.after k ps) = (completeBits bs s).after k ps := by
  induction bs generalizing s with
  | nil => rfl
  | cons b bs ih => exact ih (completeBit b s)

/-- Symbols received one after another are as many completing edges of BIT_HIGH. -/
theorem run_of_symbols (l d : Nat → Nat) (ks : List Nat) {rest : List Pins}
    (hst : s.st = if s.bitn = 40 then .check else .bitLow) (hcnt : s.cnt = 0)
    (hlen : s.bitn + ks.length ≤ 40)
    (hk : ∀ k ∈ ks, 1 ≤ l k ∧ l k ≤ s.timeoutTicks + 1 ∧ 1 ≤ d k ∧ d k ≤ s.timeoutTicks + 1)
    (hp : s.pending = (ks.flatMap fun k => symbolSamples (l k) (d k)) ++ rest) :
    run (ks.map fun k => l k + d k).sum s =
      .next ((completeBits (ks.map (durationBit s.threshTicks d)) s).after
        (ks.map fun k => l k + d k).sum rest) := by
  induction ks generalizing s with
  | nil => rw [List.flatMap_nil, List.nil_append] at hp; subst hp; rfl
  | cons k ks ih =>
    obtain ⟨⟨hl, hlT, hd, hdT⟩, hks⟩ := List.forall_mem_cons.mp hk
    rw [List.length_cons] at hlen
    have hbit : s.st = .bitLow := by rw [hst, if_neg (by omega)]
    have hsym := run_of_symbol hbit hcnt hl hlT hd hdT
      (by rw [hp, List.flatMap_cons, List.append_assoc])
    have hbitn : s.bitn + 1 + ks.length ≤ 40 := by omega
    have hrest := ih (s := (completeBit (durationBit s.threshTicks d k) s).after (l k + d k)
      ((ks.flatMap fun k => symbolSamples (l k) (d k)) ++ rest)) rfl rfl hbitn hks rfl
    rw [List.map_cons, List.sum_cons, run_add hsym]
    refine hrest.trans ?_
    rw [completeBits_after, State.after_after]
    rfl

theorem dataTicks_eq_sum (l d : Nat → Nat) :
    dataTicks l d = ((List.range 40).map fun k => l k + d k).sum := rfl

theorem dataValue_eq_bitsValue (thresh : Nat) (d : Nat → Nat) :
    dataValue thresh d = bitsValue 0 ((List.range 40).map (durationBit thresh d)) := by
  rw [bitsValue_range]
  simp only [dataValue, durationBit, Bool.toNat, Bool.cond_decide]

/-- Forty bits fit `SR`. -/
theorem dataValue_lt (thresh : Nat) (d : Nat → Nat) : dataValue thresh d < 2 ^ 40 := by
  rw [dataValue_eq_bitsValue]
  simpa using bitsValue_lt 0 ((List.range 40).map (durationBit thresh d))

end Sys2Proof.Machine

open Sys2Proof Sys2Proof.Machine

/-- Settles O16: the data phase is forty completing edges (`run_of_symbols`), and the bits they
shift into an empty `SR` are the sum of the rule by `dataValue_eq_bitsValue`. -/
theorem dataPhaseDecodesTheDurations : Obligations.DataPhaseDecodesTheDurations := by
  intro s l d rest hst hbitn hcnt hsr hk hp
  have hrun := run_of_symbols l d (List.range 40) (by rw [hst, hbitn]; rfl) hcnt
    (by simp [hbitn]) (fun k hmem => hk k (List.mem_range.mp hmem)) hp
  have hshift : ((List.range 40).map (durationBit s.threshTicks d)).foldl shiftIn s.sr =
      BitVec.ofNat 40 (dataValue s.threshTicks d) := by
    apply BitVec.eq_of_toNat_eq
    have hzero : s.sr.toNat = 0 % 2 ^ 40 := by rw [hsr]; rfl
    rw [foldl_shiftIn_toNat _ hzero, dataValue_eq_bitsValue, BitVec.toNat_ofNat]
  rw [dataTicks_eq_sum, hrun, ← hshift]
  have hcons : (List.range 40).map (durationBit s.threshTicks d) =
    durationBit s.threshTicks d 0 :: ((List.range' 1 39).map (durationBit s.threshTicks d)) := rfl
  rw [hcons, completeBits_cons, hbitn]
  rfl

end

