-- ==== Sys2Proof/Proofs/Rows.lean ====
section
/-! SUPPORT. The rows that no edge runs from `ST` (log 6 to 8): commands, pad codes, result codes;
and what the pad, the status registers and the output ports show (10_state.md sections 5 and 7). -/

namespace Sys2Proof

theorem Direction.bit_eq_one (d : Direction) : d.bit = 1 ↔ d = .drive := by
  cases d <;> decide

theorem Level.bit_eq_one (v : Level) : v.bit = 1 ↔ v = .high := by
  cases v <;> decide

end Sys2Proof

namespace Sys2Proof.Machine

variable {s : State}

/-! ### The registers of 10_state.md section 5, field by field -/

theorem statusWord_fields (s : State) :
    s.statusWord.getLsbD 0 = s.busy ∧ s.statusWord.getLsbD 1 = s.done ∧
      s.statusWord.extractLsb' 2 2 = s.code.bits := by
  rw [State.statusWord]
  cases s.code <;> cases s.done <;> cases s.busy <;> decide

theorem dataWord_fields (s : State) :
    s.dataWord.extractLsb' 0 8 = s.hum ∧ s.dataWord.extractLsb' 8 8 = s.temp := by
  have hh := s.hum.isLt
  have ht := s.temp.isLt
  constructor <;> apply BitVec.eq_of_toNat_eq <;>
    simp [State.dataWord, Nat.shiftRight_eq_div_pow] <;> omega

theorem padWord_fields (s : State) :
    s.padWord.extractLsb' 0 1 = s.out.bit ∧ s.padWord.extractLsb' 1 1 = s.oe.bit := by
  rw [State.padWord, State.oe, State.out]
  rcases s.pad with (_ | _) | _ <;> decide

/-- The codes of 30_encoding.md R87, and that there is no fourth (R89 item 2). -/
theorem padWord_codes (s : State) :
    s.padWord ≠ 0b00 ∧ (s.padWord = 0b11 ↔ s.oe = .drive ∧ s.out = .high) ∧
      (s.padWord = 0b10 ↔ s.oe = .drive ∧ s.out = .low) ∧ (s.padWord = 0b01 ↔ s.oe = .sense) := by
  rw [State.padWord, State.oe, State.out]
  rcases s.pad with (_ | _) | _ <;> decide

theorem result_eq_none (s : State) : s.result = none ↔ s.done = false := by
  rw [State.result]
  cases s.done <;> cases s.code <;> simp

/-! ### The exit sequence and the released pad -/

/-- Besides the result an exit leaves what a reset leaves (60_exceptions.md R176). -/
theorem exitRead_sameRegisters (c : ResCode) (h t : Byte) (s : State) :
    SameRegisters { exitRead c h t s with done := false, code := .ok, hum := 0, temp := 0 }
      State.reset := by
  simp [SameRegisters, State.reset]

/-- A released pad shows `OUT = 1` (10_state.md R32 item 2). -/
theorem out_of_sense (hs : s.oe = .sense) : s.out = .high := by
  rw [State.out]
  rw [State.oe] at hs
  cases hpad : s.pad with
  | drive v => rw [hpad] at hs; cases hs
  | sense => rfl

end Sys2Proof.Machine

open Sys2Proof Sys2Proof.Machine

/-- Settles O6: outside `IDLE` READ answers the state it is given, and NOCMD does so anywhere. -/
theorem commandRowsDoNothingWhileBusy : Obligations.CommandRowsDoNothingWhileBusy :=
  ⟨fun s hbusy => congrArg Host.Outcome.next (if_neg (c := s.st = .idle) hbusy), fun _ => rfl⟩

/-- Settles O18: the row OK is `exitOk`, each error row is `raise` of its error; every one of them
is `exitRead`, which leaves the idle registers and a result. -/
theorem resultRowsAreExits : Obligations.ResultRowsAreExits := by
  intro s
  refine ⟨congrArg _ (exitOk_eq_exited s), rfl, rfl, rfl, fun i t hi ht => ?_⟩
  rcases hi with rfl | rfl | rfl | rfl <;> cases ht <;> exact exitRead_sameRegisters _ _ _ s

/-- Settles O19: direction, then level (20_memory.md R62), is the pad that drives the level;
the release is the pad that senses. -/
theorem padRowsDriveAndRelease : Obligations.PadRowsDriveAndRelease := by
  refine fun s => ⟨rfl, rfl, rfl, fun i t ht => ⟨?_, ?_, ?_⟩⟩ <;>
    (rintro rfl; cases ht; exact ⟨rfl, rfl, rfl⟩)

/-- Settles O38: the codes are `padWord_codes`; a write of one bit is the law of `lineDir` or
`lineLevel`, and a released pad stays released, with `OUT = 1`. -/
theorem padShowsOneOfThreeCodes : Obligations.PadShowsOneOfThreeCodes := by
  intro s
  obtain ⟨h00, h11, h10, h01⟩ := padWord_codes s
  exact ⟨h00, h11, h10, h01, fun d => lineDir_oe d s, lineDir_drive_out s, lineDir_sense_out s,
    fun v => ⟨lineLevel_oe v s, lineLevel_out_of_drive,
      fun hs => out_of_sense ((lineLevel_oe v s).trans hs)⟩,
    execHsHigh_of_completing⟩

/-- Settles O30: the fields of the three words, register by register; the ports show the registers
as they are. -/
theorem portsShowTheRegisters : Obligations.PortsShowTheRegisters := by
  intro s
  obtain ⟨hbusy, hdone, hcode⟩ := statusWord_fields s
  obtain ⟨hhum, htemp⟩ := dataWord_fields s
  obtain ⟨hout, hoe⟩ := padWord_fields s
  exact ⟨decide_eq_true_iff, hbusy, hdone, hcode, hhum, htemp, hout, hoe,
    Direction.bit_eq_one s.oe, Level.bit_eq_one s.out, rfl, rfl, rfl, rfl, rfl, result_eq_none s⟩

end

