-- ==== Sys2Proof/Proofs/Placing.lean ====
section
/-! SUPPORT. A word placed where the next edge runs it (log 14): a code in `ST`, a command on the
port `start`, a frame one edge before the end of its fortieth symbol. -/

namespace Sys2Proof

/-- A table word decodes in the format that its width stands for, and there it is the instruction's
word (log 1). -/
theorem encode_format_of_decodeTableWord {nbits w : Nat} {i : Instr}
    (h : decodeTableWord nbits w = some i) : formatOfWidth nbits = some (encode i).format := by
  unfold decodeTableWord at h
  cases hf : formatOfWidth nbits with
  | none => simp [hf] at h
  | some f =>
    cases hd : decode f w with
    | error r => simp [hf, hd] at h
    | ok j =>
      obtain rfl : j = i := by simpa [hf, hd] using h
      rw [encode_of_decode hd]

/-- No width stands for `PADC`, `RES` or `SYM` (log 1). -/
theorem formatOfWidth_cases {nbits : Nat} {f : Format} (h : formatOfWidth nbits = some f) :
    f = .cmd ∨ f = .seq ∨ f = .wire40 := by
  unfold formatOfWidth at h
  split at h <;> cases h <;> simp

end Sys2Proof

namespace Sys2Proof.Machine

/-- The edge that comes runs `i`: no reset, `i` answers a next state, and the step is that one. -/
def RunsNext (i : Instr) (u : State) : Prop :=
  u.pins.rst = false ∧ ∃ t, exec i u = .next t ∧ step u = .next (t.past 1)

/-- It is enough that the operation in `ST` answers what `i` does. -/
theorem runsNext_of_fetch {i : Instr} {u : State} (hr : u.pins.rst = false)
    (hi : exec i u = exec (fetch u) u) : RunsNext i u := by
  obtain ⟨t, ht⟩ := exec_instr_answers u.st u
  exact ⟨hr, t, hi.trans ht, tick_eq_past_one t ▸ step_of_exec hr ht⟩

theorem runsNext_withOp (s : State) (o : SeqOp) : RunsNext o.instr (s.withOp o) :=
  runsNext_of_fetch rfl rfl

/-! ### A frame before the end of its fortieth symbol -/

/-- Thirty-nine bits of a frame and then the last one are the frame. -/
theorem shiftIn_ushiftRight_one (v : FrameWord) : shiftIn (v >>> 1) (v.getLsbD 0) = v := by
  have hv := v.isLt
  have hbit : (v.getLsbD 0).toNat = v.toNat % 2 := by
    rw [BitVec.getLsbD, Nat.toNat_testBit, Nat.pow_zero, Nat.div_one]
  apply BitVec.eq_of_toNat_eq
  rw [shiftIn_toNat, BitVec.toNat_ushiftRight, Nat.shiftRight_one, hbit]
  omega

/-- `CNT` stands on the side of the threshold that decides the last bit of the frame. -/
theorem bit_place_frame {s : State} (hw : s.params.wellFormed = true) (h f t g c : Byte) :
    (s.place (.frame h f t g c)).bit = (frameWord h f t g c).getLsbD 0 := by
  have hthresh : 1 ≤ s.threshTicks := (ticks_pos hw).1
  change decide (s.threshTicks <
    (if (frameWord h f t g c).getLsbD 0 then s.threshTicks else 0) + 1) = _
  cases (frameWord h f t g c).getLsbD 0
  · simpa using Nat.one_le_iff_ne_zero.mp hthresh
  · simp

/-- The completing edge of the fortieth symbol leaves what the row FRAME leaves. -/
theorem exec_frame_of_last {u : State} {b : Bool} {h f t g c : Byte} (hbitn : u.bitn + 1 = 40)
    (hsr : shiftIn u.sr b = frameWord h f t g c) :
    exec (.frame h f t g c) u = .next (completeBit b u) := by
  rw [completeBit, hsr, hbitn]
  rfl

theorem runsNext_place_frame {s : State} (hw : s.params.wellFormed = true) (h f t g c : Byte) :
    RunsNext (.frame h f t g c) (s.place (.frame h f t g c)) := by
  have hend : exec .bitHigh (s.place (.frame h f t g c)) =
      .next (completeBit (s.place (.frame h f t g c)).bit (s.place (.frame h f t g c))) :=
    exec_bitHigh_of_end rfl rfl
  rw [bit_place_frame hw] at hend
  have hsr : shiftIn (s.place (.frame h f t g c)).sr ((frameWord h f t g c).getLsbD 0) =
      frameWord h f t g c := shiftIn_ushiftRight_one (frameWord h f t g c)
  have hframe := exec_frame_of_last (u := s.place (.frame h f t g c)) rfl hsr
  exact runsNext_of_fetch rfl (hframe.trans hend.symm)

end Sys2Proof.Machine

open Sys2Proof Sys2Proof.Machine

/-- Settles O24: a word of the table is a command, a code or a frame (`formatOfWidth_cases`); a code
is placed in `ST` itself, and for the others the operation in `ST` answers what the row does. -/
theorem placedWordRunsNext : Obligations.PlacedWordRunsNext := by
  intro s nbits w i hw hi
  have hplace : s.withFetchWord nbits w = s.place i := by rw [State.withFetchWord, hi]
  have hformat := formatOfWidth_cases (encode_format_of_decodeTableWord hi)
  rw [hplace]
  cases i with
  | nocmd => exact runsNext_of_fetch rfl rfl
  | read => exact runsNext_of_fetch rfl rfl
  | idle => exact runsNext_withOp s .idle
  | hsLow => exact runsNext_withOp s .hsLow
  | hsHigh => exact runsNext_withOp s .hsHigh
  | ack1 => exact runsNext_withOp s .ack1
  | ack2 => exact runsNext_withOp s .ack2
  | ack3 => exact runsNext_withOp s .ack3
  | bitLow => exact runsNext_withOp s .bitLow
  | bitHigh => exact runsNext_withOp s .bitHigh
  | check => exact runsNext_withOp s .check
  | frame h f t g c => exact runsNext_place_frame hw h f t g c
  | driveLow | driveHigh | sense | ok | driverFault | timeout | checksumMismatch | bit0 | bit1 =>
    simp [encode] at hformat

end

