-- ==== Sys2Proof/Proofs/HandshakeRun.lean ====
section
/-! SUPPORT. The handshake edge by edge (41_handshake.md R123): the state `k` edges after an
acceptance that no reset and no driver fault disturbs. -/

namespace Sys2Proof.Machine

variable {s : State}

/-! ### The input ports of an edge to come -/

theorem pins_past_of_lt {qs rest : List Pins} (hp : s.pending = qs ++ rest) {i : Nat}
    (hi : i < qs.length) : (s.past i).pins = qs[i] := by
  simp [State.pins, hp, List.getElem?_append_left hi, hi]

/-! ### The handshake, edge by edge -/

/-- `k` edges after `s`, in a read that was accepted at `s`: the operation, the pad and `CNT`;
nothing received, no result. -/
def State.inRead (s : State) (o : SeqOp) (p : Pad) (c k : Nat) : State :=
  { s.past k with
    st := o, pad := p, cnt := c, bitn := 0, sr := 0
    done := false, code := .ok, hum := 0, temp := 0 }

theorem tick_inRead (s : State) (o : SeqOp) (p : Pad) (c k : Nat) :
    tick (s.inRead o p c k) = s.inRead o p c (k + 1) := by
  simp [tick, State.inRead, Nat.add_assoc]

/-- A READ is accepted, and neither a reset nor a driver fault comes in its handshake. -/
structure State.HandshakeAhead (s : State) : Prop where
  idle : s.st = .idle
  noReset : s.pins.rst = false
  started : s.started = true
  noFault : s.faulted = false
  quiet : ∀ i, i < s.hsLowTicks + s.hsHighTicks →
    (s.past (1 + i)).pins.rst = false ∧ (s.past (1 + i)).pins.drvFault = false

/-- One more edge of the read. -/
theorem run_succ_inRead {o o' : SeqOp} {p p' : Pad} {c c' k : Nat}
    (hrun : run k s = .next (s.inRead o p c k)) (hr : (s.past k).pins.rst = false)
    (h : Edge (s.inRead o p c k) (s.inRead o' p' c' k)) :
    run (k + 1) s = .next (s.inRead o' p' c' (k + 1)) := by
  rw [run_succ_of_run hrun (h.step_eq hr), tick_inRead]

theorem run_of_hsLow (h : s.HandshakeAhead) {j : Nat} (hj : j < s.hsLowTicks) :
    run (1 + j) s = .next (s.inRead .hsLow (.drive .low) j (1 + j)) := by
  induction j with
  | zero =>
    rw [run_succ (step_of_start h.idle h.noReset h.started), acceptRead_of_not_faulted h.noFault]
    simp [run, tick, State.inRead]
  | succ j ih =>
    obtain ⟨hr, -⟩ := h.quiet j (by omega)
    exact run_succ_inRead (ih (by omega)) hr
      (.holdLow (s := s.inRead .hsLow (.drive .low) j (1 + j)) rfl (Nat.ne_of_lt hj))

/-- The edge `N` after the acceptance edge drives the Line high. -/
theorem run_of_driveHigh (h : s.HandshakeAhead) (hN : 1 ≤ s.hsLowTicks) :
    run (1 + s.hsLowTicks) s =
      .next (s.inRead .hsHigh (.drive .high) 0 (1 + s.hsLowTicks)) := by
  obtain ⟨n, hn⟩ := Nat.exists_eq_add_of_le' hN
  obtain ⟨hr, hf⟩ := h.quiet n (by omega)
  rw [hn]
  exact run_succ_inRead (run_of_hsLow h (by omega)) hr
    (.driveHigh (s := s.inRead .hsLow (.drive .low) n (1 + n)) rfl hn.symm hf)

theorem run_of_hsHigh (h : s.HandshakeAhead) (hN : 1 ≤ s.hsLowTicks) {j : Nat}
    (hj : j < s.hsHighTicks) :
    run (1 + (s.hsLowTicks + j)) s =
      .next (s.inRead .hsHigh (.drive .high) j (1 + (s.hsLowTicks + j))) := by
  induction j with
  | zero => exact run_of_driveHigh h hN
  | succ j ih =>
    obtain ⟨hr, -⟩ := h.quiet (s.hsLowTicks + j) (by omega)
    exact run_succ_inRead (ih (by omega)) hr
      (.holdHigh (s := s.inRead .hsHigh (.drive .high) j (1 + (s.hsLowTicks + j))) rfl
        (Nat.ne_of_lt hj))

/-- The read after its release edge, `N + M` edges after the acceptance edge. -/
def State.released (s : State) : State :=
  s.inRead .ack1 .sense 0 (1 + (s.hsLowTicks + s.hsHighTicks))

theorem run_of_release (h : s.HandshakeAhead) (hN : 1 ≤ s.hsLowTicks) (hM : 1 ≤ s.hsHighTicks) :
    run (1 + (s.hsLowTicks + s.hsHighTicks)) s = .next s.released := by
  obtain ⟨m, hm⟩ := Nat.exists_eq_add_of_le' hM
  obtain ⟨hr, hf⟩ := h.quiet (s.hsLowTicks + m) (by omega)
  rw [State.released, hm]
  exact run_succ_inRead (run_of_hsHigh h hN (by omega)) hr
    (.release (s := s.inRead .hsHigh (.drive .high) m (1 + (s.hsLowTicks + m))) rfl hm.symm hf)

/-- A list of inputs that begins with a command and the quiet edges of a handshake. -/
theorem handshakeAhead_of_pending {p : Pins} {ps rest : List Pins} (hst : s.st = .idle)
    (hp : s.pending = p :: ps ++ rest) (hr : p.rst = false) (hs : p.start = true)
    (hf : p.drvFault = false) (hlen : s.hsLowTicks + s.hsHighTicks ≤ ps.length)
    (hps : ∀ q ∈ ps, q.rst = false ∧ q.drvFault = false) : s.HandshakeAhead := by
  have hpins : s.pins = p := State.pins_of_cons hp
  refine ⟨hst, by rwa [hpins], by rwa [State.started, hpins], by rwa [State.faulted, hpins],
    fun i hi => ?_⟩
  have hlt : 1 + i < (p :: ps).length := by rw [List.length_cons]; omega
  have hmem : (p :: ps)[1 + i] ∈ ps := by
    simp only [Nat.add_comm 1 i, List.getElem_cons_succ, List.getElem_mem]
  rw [pins_past_of_lt hp hlt]
  exact hps _ hmem

/-- What is listed after the handshake is the input after the release edge. -/
theorem released_pending {p : Pins} {ps rest : List Pins} (hp : s.pending = p :: ps ++ rest)
    (hlen : ps.length = s.hsLowTicks + s.hsHighTicks) : s.released.pending = rest := by
  change s.pending.drop (1 + (s.hsLowTicks + s.hsHighTicks)) = rest
  rw [hp, ← hlen]
  exact List.drop_left' (by rw [List.length_cons, Nat.add_comm])

end Sys2Proof.Machine

open Sys2Proof Sys2Proof.Machine

/-- Settles O9: before `N`, before `N + M` and at `N + M` the state is that of `run_of_hsLow`,
`run_of_hsHigh` and `run_of_release`. -/
theorem handshakePadWaveform : Obligations.HandshakePadWaveform := by
  intro s p ps rest j hw hst hp hr hs hf hlen hps hj
  obtain ⟨-, -, hN, hM⟩ := ticks_pos hw
  have hahead : s.HandshakeAhead :=
    handshakeAhead_of_pending hst hp hr hs hf (Nat.le_of_eq hlen.symm) hps
  rcases Nat.lt_or_ge j s.hsLowTicks with hlow | hlow
  · exact ⟨_, run_of_hsLow hahead hlow, fun _ => ⟨rfl, rfl⟩, fun h => by omega, fun h => by omega⟩
  obtain ⟨i, rfl⟩ := Nat.exists_eq_add_of_le hlow
  rcases Nat.lt_or_ge i s.hsHighTicks with hhigh | hhigh
  · exact ⟨_, run_of_hsHigh hahead hN hhigh, fun h => by omega, fun _ _ => ⟨rfl, rfl⟩,
      fun h => by omega⟩
  · obtain rfl : i = s.hsHighTicks := by omega
    exact ⟨_, run_of_release hahead hN hM, fun h => by omega, fun _ h => by omega,
      fun _ => ⟨rfl, rfl, rfl, released_pending hp hlen⟩⟩

end

