-- ==== Sys2Proof/Proofs/WholeRead.lean ====
section
/-! SUPPORT. Reads after their handshake: the acknowledgment, the read that no Sensor answers, and
the read of a whole waveform (95_test_vectors.md S3, S6, S7). -/

namespace Sys2Proof.Machine

variable {s : State}

/-! ### The acknowledgment -/

/-- The three waits of the acknowledgment measure `n + 1`, `a` and `b` ticks. -/
theorem run_of_acknowledge {n a b : Nat} {rest : List Pins} (hst : s.st = .ack1) (hcnt : s.cnt = 0)
    (hn : n ≤ s.timeoutTicks) (ha : 1 ≤ a) (haT : a ≤ s.timeoutTicks + 1) (hb : 1 ≤ b)
    (hbT : b ≤ s.timeoutTicks + 1)
    (hp : s.pending = (List.replicate n (sample .high) ++ List.replicate a (sample .low) ++
      List.replicate b (sample .high) ++ [sample .low]) ++ rest) :
    run (n + 1 + a + b) s =
      .next ((enter .bitLow { s with bitn := 0 }).after (n + 1 + a + b) rest) := by
  obtain ⟨a, rfl⟩ := Nat.exists_eq_add_of_le' ha
  obtain ⟨b, rfl⟩ := Nat.exists_eq_add_of_le' hb
  have hsamples : s.pending = List.replicate n (sample .high) ++ sample .low ::
      (List.replicate a (sample .low) ++ sample .high ::
        (List.replicate b (sample .high) ++ sample .low :: rest)) := by
    simp [hp, List.replicate_succ]
  have hack1 := run_add_wait (run_zero_after hsamples) hst rfl hcnt nofun hn
  rw [Nat.zero_add] at hack1
  have hack2 := run_add_wait hack1 rfl rfl rfl nofun (Nat.le_of_succ_le_succ haT)
  exact run_add_wait hack2 rfl rfl rfl nofun (Nat.le_of_succ_le_succ hbT)

/-! ### A read that no Sensor answers -/

/-- The wait for the Sensor's first low, while the Line stays high. -/
theorem run_of_silence {m : Nat} {qs rest : List Pins} (hst : s.st = .ack1) (hcnt : s.cnt = 0)
    (hp : s.pending = qs ++ rest)
    (hq : ∀ q ∈ qs, q.rst = false ∧ q.drvFault = false ∧ q.lineIn = .high)
    (hm : m ≤ qs.length) (hT : m ≤ s.timeoutTicks) : run m s = .next (s.polled m) := by
  have hlen : (qs.take m).length = m := List.length_take_of_le hm
  have hrun := run_of_wait_polling (qs.take m) (qs.drop m ++ rest) (v := .high) (by rw [hst]; rfl)
    (by rw [hp, ← List.append_assoc, List.take_append_drop])
    (fun q hmem => hq q (List.mem_of_mem_take hmem)) (by rwa [hlen, hcnt, Nat.zero_add])
  rwa [hlen] at hrun

/-- It ends beyond the ceiling with Timeout. -/
theorem run_of_silence_to_ceiling {qs rest : List Pins} (hst : s.st = .ack1) (hcnt : s.cnt = 0)
    (hp : s.pending = qs ++ rest)
    (hq : ∀ q ∈ qs, q.rst = false ∧ q.drvFault = false ∧ q.lineIn = .high)
    (hlen : qs.length = s.timeoutTicks + 1) :
    run (s.timeoutTicks + 1) s =
      .next ((raise .timeout s).after (s.timeoutTicks + 1) rest) := by
  have hrun := run_of_silence hst hcnt hp hq (m := s.timeoutTicks) (by omega) le_rfl
  have hlt : s.timeoutTicks < qs.length := by omega
  have hpins : (s.polled s.timeoutTicks).pins = qs[s.timeoutTicks] := pins_past_of_lt hp hlt
  obtain ⟨hr, hf, hl⟩ := hq _ (List.getElem_mem hlt)
  have hw : waitLevel (s.polled s.timeoutTicks).st = some .high := congrArg waitLevel hst
  have hel : (s.polled s.timeoutTicks).timeoutTicks < (s.polled s.timeoutTicks).el := by
    change s.timeoutTicks < s.cnt + s.timeoutTicks + 1
    omega
  rw [run_succ_of_run hrun (step_of_wait_expired hw (hpins ▸ hr)
    (by rw [State.faulted, hpins, hf]) (by rw [State.lineRead, hpins, hl]) hel)]
  have hrest : (s.pending.drop s.timeoutTicks).tail = rest := by
    rw [List.tail_drop, hp, ← hlen, List.drop_left]
  exact congrArg (fun ps => Host.Outcome.next ((raise .timeout s).after (s.timeoutTicks + 1) ps))
    hrest

/-- From the acceptance edge until the ceiling the read is in progress and shows no result. -/
theorem run_of_unanswered (h : s.HandshakeAhead) (hw : s.params.wellFormed = true)
    {qs rest : List Pins} (hp : s.released.pending = qs ++ rest)
    (hq : ∀ q ∈ qs, q.rst = false ∧ q.drvFault = false ∧ q.lineIn = .high)
    (hlen : qs.length = s.timeoutTicks + 1) {j : Nat}
    (hj : j ≤ s.hsLowTicks + s.hsHighTicks + s.timeoutTicks) :
    ∃ u, run (1 + j) s = .next u ∧ u.st ≠ .idle ∧ u.result = none := by
  obtain ⟨-, -, hN, hM⟩ := ticks_pos hw
  rcases Nat.lt_or_ge j s.hsLowTicks with hlow | hlow
  · exact ⟨_, run_of_hsLow h hlow, nofun, rfl⟩
  obtain ⟨i, rfl⟩ := Nat.exists_eq_add_of_le hlow
  rcases Nat.lt_or_ge i s.hsHighTicks with hhigh | hhigh
  · exact ⟨_, run_of_hsHigh h hN hhigh, nofun, rfl⟩
  obtain ⟨m, rfl⟩ := Nat.exists_eq_add_of_le hhigh
  have hm : m ≤ s.timeoutTicks := by omega
  rw [← Nat.add_assoc s.hsLowTicks, ← Nat.add_assoc 1, run_add (run_of_release h hN hM)]
  exact ⟨_, run_of_silence (s := s.released) rfl rfl hp hq (by omega) hm, nofun, rfl⟩

/-! ### A read that is answered to its end -/

/-- `t` is the idle state after a read whose frame is the number `v`: the Measurement of its bytes 0
and 2 if the checksum holds, and ChecksumMismatch otherwise (44_validate.md R151 to R153). -/
def Delivers (v : Nat) (rest : List Pins) (t : State) : Prop :=
  t.st = .idle ∧ t.oe = .drive ∧ t.out = .high ∧ t.sr = 0 ∧ t.pending = rest ∧
    (valueSum v = valueByte v 4 → t.result = some (.ok
      { humidity := BitVec.ofNat 8 (valueByte v 0)
        temperature := BitVec.ofNat 8 (valueByte v 2) })) ∧
    (valueSum v ≠ valueByte v 4 → t.result = some (.err .checksumMismatch))

/-- The edge of CHECK, with no driver fault. -/
theorem step_of_check (hst : s.st = .check) (hr : s.pins.rst = false) (hf : s.faulted = false) :
    ∃ t, step s = .next t ∧ Delivers s.sr.toNat s.pending.tail t := by
  by_cases hsum : s.sumOk = true
  · have hvalue := (sumOk_iff s).mp hsum
    refine ⟨_, (Edge.deliver hst hf hsum).step_eq hr, rfl, rfl, rfl, rfl, rfl, fun _ => ?_,
      fun h => absurd hvalue h⟩
    rw [exitOk_eq_exited]
    rfl
  · have hvalue := mt (sumOk_iff s).mpr hsum
    exact ⟨_, (Edge.mismatch hst hf hsum).step_eq hr, rfl, rfl, rfl, rfl, rfl,
      fun h => absurd h hvalue, fun _ => rfl⟩

/-- The data phase and CHECK. -/
theorem run_of_data_and_check {l d : Nat → Nat} {p : Pins} {rest : List Pins}
    (hst : s.st = .bitLow) (hbitn : s.bitn = 0) (hcnt : s.cnt = 0) (hsr : s.sr = 0)
    (hk : ∀ k, k < 40 → 1 ≤ l k ∧ l k ≤ s.timeoutTicks + 1 ∧ 1 ≤ d k ∧ d k ≤ s.timeoutTicks + 1)
    (hr : p.rst = false) (hf : p.drvFault = false)
    (hp : s.pending = dataSamples l d ++ p :: rest) :
    ∃ t, run (dataTicks l d + 1) s = .next t ∧ Delivers (dataValue s.threshTicks d) rest t := by
  have hdata := dataPhaseDecodesTheDurations s l d (p :: rest) hst hbitn hcnt hsr hk hp
  obtain ⟨t, ht, hdelivers⟩ := step_of_check (s := { s with
    st := .check, bitn := 40, cnt := 0, sr := BitVec.ofNat 40 (dataValue s.threshTicks d),
    pending := p :: rest, edge := s.edge + dataTicks l d }) rfl hr hf
  rw [BitVec.toNat_ofNat, Nat.mod_eq_of_lt (dataValue_lt _ d)] at hdelivers
  exact ⟨t, run_succ_of_run hdata ht, hdelivers⟩

end Sys2Proof.Machine

open Sys2Proof Sys2Proof.Machine

/-- Settles O32: the edges before the exit by `run_of_unanswered`, the exit itself by
`run_of_silence_to_ceiling`; what `start` shows after acceptance is in neither. -/
theorem absentSensorGivesTimeout : Obligations.AbsentSensorGivesTimeout := by
  intro s ps rest hw hst hp hlen hps
  obtain ⟨-, -, hN, hM⟩ := ticks_pos hw
  obtain ⟨hs, qs, rfl, hhs⟩ :
      ∃ hs qs, ps = hs ++ qs ∧ hs.length = s.hsLowTicks + s.hsHighTicks :=
    ⟨_, _, (List.take_append_drop _ ps).symm, List.length_take_of_le (by omega)⟩
  rw [List.forall_mem_append] at hps
  obtain ⟨hquiet, hsilent⟩ := hps
  have hqs : qs.length = s.timeoutTicks + 1 := by rw [List.length_append] at hlen; omega
  rw [← List.cons_append, List.append_assoc] at hp
  have hahead : s.HandshakeAhead :=
    handshakeAhead_of_pending hst hp rfl rfl rfl (Nat.le_of_eq hhs.symm)
      fun q hq => ⟨(hquiet q hq).1, (hquiet q hq).2.1⟩
  have hpending : s.released.pending = qs ++ rest := released_pending hp hhs
  constructor
  · intro j hj1 hj
    obtain ⟨i, rfl⟩ := Nat.exists_eq_add_of_le hj1
    exact run_of_unanswered hahead hw hpending hsilent hqs (by omega)
  · rw [← Nat.add_assoc 1, run_add (run_of_release hahead hN hM)]
    exact ⟨_, run_of_silence_to_ceiling (s := s.released) rfl rfl hpending hsilent hqs, rfl, rfl,
      rfl, rfl, rfl, rfl, rfl, rfl, rfl, rfl, rfl, rfl⟩

/-- Settles O33: the handshake, the three waits of the acknowledgment, and the data phase with
CHECK, one after another. -/
theorem wholeReadDeliversTheMeasurement : Obligations.WholeReadDeliversTheMeasurement := by
  intro s n a b l d p rest hw hst hn ha haT hb hbT hk hr hf hp
  obtain ⟨-, -, hN, hM⟩ := ticks_pos hw
  rw [List.append_assoc, List.append_assoc, ← List.cons_append] at hp
  have hlen : (List.replicate (s.hsLowTicks + s.hsHighTicks) quietPins).length =
      s.hsLowTicks + s.hsHighTicks := List.length_replicate
  have hahead : s.HandshakeAhead :=
    handshakeAhead_of_pending hst hp rfl rfl rfl (Nat.le_of_eq hlen.symm)
      fun q hq => List.eq_of_mem_replicate hq ▸ ⟨rfl, rfl⟩
  have hack := run_of_acknowledge (s := s.released) rfl rfl hn ha haT hb hbT
    (released_pending hp hlen)
  obtain ⟨t, ht, hdelivers⟩ := run_of_data_and_check
    (s := (enter .bitLow { s.released with bitn := 0 }).after (n + 1 + a + b)
      (dataSamples l d ++ p :: rest)) rfl rfl rfl rfl hk hr hf rfl
  have hticks : 1 + (s.hsLowTicks + s.hsHighTicks + (n + 1 + a + b + dataTicks l d) + 1) =
      1 + (s.hsLowTicks + s.hsHighTicks) + (n + 1 + a + b + (dataTicks l d + 1)) := by omega
  rw [hticks, run_add (run_of_release hahead hN hM), run_add hack]
  exact ⟨t, ht, hdelivers⟩

end
